-- ==== Sys2Proof/Word.lean ====
section
/-! DEFINITION. The value types of the block: every register and the data bus are 32 bits wide (R6 WIDTH, BUS_W), bit 0 is
the least significant bit (R7), and a request descriptor has 7 bits (R45). -/

namespace Sys2Proof

/-- A 32-bit value: ACC, DR, CR, REQ_WDATA, RSP_RDATA (R6 WIDTH = 32, BUS_W = 32; R7). -/
abbrev Word := BitVec 32

/-- One byte of a host's buffer, or one byte lane of the data bus (R10, R30). -/
abbrev Byte := BitVec 8

/-- The 7-bit request descriptor `Q` (R45). -/
abbrev Descriptor := BitVec 7

end Sys2Proof
end

