-- ==== Sys2Proof/Config.lean ====
section
/-! DEFINITION. What is fixed when the block is built (R6, R18): the algorithm's parameters with the values the spec gives
them, the parameters the spec leaves OPEN, and the values it leaves unspecified. An OPEN parameter of the block and an
unspecified value are constants with no body: nothing can be proved about which value they have. -/

namespace Sys2Proof

/-- The two bit-serial datapaths the spec allows for CRC_IMPL = `SERIAL`: the XOR-then-shift form of R63, which D29 calls
normative, and the bit-input shift register of R65, which is also conforming. -/
inductive SerialForm where
  | xorShift
  | bitInput
  deriving DecidableEq, Repr

/-- CRC_IMPL (R6, D8, OPEN): a parallel datapath (R62) or a bit-serial one (R63, or its alternative R65). -/
inductive CrcImpl where
  | parallel
  | serial (form : SerialForm)
  deriving DecidableEq, Repr, Inhabited

/-- PAD_POLICY (R6, D16, OPEN, host side): append zero bytes (R87) or fail (R88). -/
inductive PadPolicy where
  | zeroPad
  | reject
  deriving DecidableEq, Repr

/-- The OPEN parameters of one built instance of the block and of its place in the platform: CRC_IMPL, and BASE counted in
windows of 16 bytes, so that BASE is a multiple of 16 by construction (R6, R28). -/
structure Params where
  crcImpl   : CrcImpl
  baseBlock : Nat
  deriving DecidableEq, Repr

/-- BASE, the bus address of the register window: a multiple of 16 (R28). -/
def Params.base (p : Params) : Nat := 16 * p.baseBlock

namespace Config

/-- POLY (R2, R6, R58). -/
def poly : Word := 0x04C11DB7#32

/-- INIT (R2, R6). -/
def init : Word := 0xFFFFFFFF#32

/-- REFOUT (R2, R6): no output reflection. -/
def refOut : Bool := false

/-- XOROUT (R2, R6). -/
def xorOut : Word := 0x00000000#32

/-- ADDR_W (R6): the block decodes 4 bits of byte offset. -/
def addrW : Nat := 4

/-- The size of the register window in bytes, 2^ADDR_W (R28). -/
def windowBytes : Nat := 2 ^ addrW

/-- WORD_BYTES (R6). -/
def wordBytes : Nat := 4

/-- SERIAL_CYCLES (R6, R63, R125). -/
def serialCycles : Nat := 32

/-- The default of PAD_POLICY in this spec's examples (R6, R87, D16). -/
def padPolicyDefault : PadPolicy := .zeroPad

/-- CRC_IMPL of the instance that `step` runs: OPEN (D8), so it has no body (log entry 3). -/
opaque crcImpl : CrcImpl

/-- BASE / 16 of the instance that `step` runs: OPEN (D3), so it has no body (log entry 3). -/
opaque baseBlock : Nat

/-- The OPEN parameters of the instance that `step` runs. -/
def params : Params := ⟨crcImpl, baseBlock⟩

/-- ACC between power-up and the first hardware reset is unspecified (R118): a free value at each edge (log entry 4). -/
opaque powerUpAcc : Nat → Word

/-- SHIFT_CNT between power-up and the first hardware reset is unspecified (R118, log entry 4). -/
opaque powerUpShiftCnt : Nat → Fin 32

/-- The data shift register of R65 between power-up and the first hardware reset (R118, log entry 4). -/
opaque powerUpDataShift : Nat → Word

/-- RSP_READY between power-up and the first hardware reset is unspecified (R118, log entry 4). -/
opaque powerUpReady : Nat → Bool

/-- RSP_ERR between power-up and the first hardware reset is unspecified (R118, log entry 4). -/
opaque powerUpErr : Nat → Bool

/-- RSP_RDATA between power-up and the first hardware reset is unspecified (R118, log entry 4). -/
opaque powerUpRdata : Nat → Word

end Config

end Sys2Proof
end

