-- ==== Sys2Proof/Machine/Crc.lean ====
section
/-! DEFINITION. The CRC arithmetic of 40_crc_core.md: the one-bit step, the word update, the update over a word sequence, the
bit-input form of R65, the inverse step of R68, the XOR network of R66, and the catalogued byte-wise CRC that R69 compares
with. Every operation is on 32-bit unsigned values (R70). -/

namespace Sys2Proof.Machine

open Sys2Proof

/-- The one-bit step function `step` (R57): the shift first, then the XOR with POLY if bit 31 was set before the shift. -/
def crcStep (x : Word) : Word := if x[31] then (x <<< 1) ^^^ Config.poly else x <<< 1

/-- `n` steps. -/
def crcSteps : Nat → Word → Word
  | 0, x     => x
  | n + 1, x => crcSteps n (crcStep x)

/-- The word update `crc_update` (R59): the whole word is XORed in, and 32 steps follow. -/
def crcUpdate (acc w : Word) : Word := crcSteps 32 (acc ^^^ w)

/-- The update over a sequence of words, `crc_words` (R60), in buffer order. -/
def crcWords : Word → List Word → Word
  | acc, []      => acc
  | acc, w :: ws => crcWords (crcUpdate acc w) ws

/-- The output stage of the parameter set (R2, R61): output reflection under REFOUT, then the XOR with XOROUT. -/
def crcOutput (acc : Word) : Word := (if Config.refOut then acc.reverse else acc) ^^^ Config.xorOut

/-- The checksum of a word sequence (R60, R61). -/
def checksum (ws : List Word) : Word := crcOutput (crcWords Config.init ws)

/-- One iteration of the bit-input shift register (R65), fed the data bit `b`. -/
def lfsrStep (acc : Word) (b : Bool) : Word :=
  if xor (acc[31]) b then (acc <<< 1) ^^^ Config.poly else acc <<< 1

/-- `n` iterations of the bit-input shift register, each fed bit 31 of the data shift register, which shifts left (R65). -/
def lfsrSteps : Nat → Word → Word → Word
  | 0, acc, _    => acc
  | n + 1, acc, d => lfsrSteps n (lfsrStep acc (d[31])) (d <<< 1)

/-- The word update by the bit-input form (R65). -/
def lfsrUpdate (acc d : Word) : Word := lfsrSteps 32 acc d

/-- The inverse of the step (R68 (c)). -/
def crcStepInv (y : Word) : Word :=
  if y[0] then ((y ^^^ Config.poly) >>> 1) ||| 0x80000000#32 else y >>> 1

/-- `parity(v)`: the XOR of all bits of `v` (R8). -/
def parity (v : Word) : Bool := (List.range 32).foldl (fun p i => xor p (v.getLsbD i)) false

/-- MASK of R66, from output bit 0 up to output bit 31. -/
def crcMask : List Word :=
  [0xF7011641#32, 0x19033AC3#32, 0xC50763C7#32, 0x8A0EC78E#32, 0xE31C995D#32, 0x313824FB#32, 0x627049F6#32, 0x33E185AD#32] ++
  [0x90C21D1B#32, 0x21843A36#32, 0xB409622D#32, 0x9F13D21B#32, 0xC926B277#32, 0x924D64EE#32, 0x249AC9DC#32, 0x493593B8#32] ++
  [0x656A3131#32, 0xCAD46262#32, 0x95A8C4C4#32, 0x2B518988#32, 0x56A31310#32, 0xAD462620#32, 0xAD8D5A01#32, 0xAC1BA243#32] ++
  [0x58374486#32, 0xB06E890C#32, 0x97DC0459#32, 0x2FB808B2#32, 0x5F701164#32, 0xBEE022C8#32, 0x7DC04590#32, 0xFB808B20#32]

/-- The XOR network of R66: output bit `j` is the parity of `v` masked with MASK[j]. -/
def crcNetwork (v : Word) : Word :=
  (List.range 32).foldl
    (fun out j => if parity (v &&& crcMask.getD j 0#32) then out ||| (1#32 <<< j) else out) 0#32

/-- One byte of the catalogued byte-wise CRC that R69 names, most significant bit first: the byte is XORed into bits 31:24,
and 8 steps follow. -/
def bytewiseUpdate (acc : Word) (b : Byte) : Word := crcSteps 8 (acc ^^^ (b.setWidth 32 <<< 24))

/-- The catalogued byte-wise CRC of R69 over a byte stream. -/
def bytewiseCrc (bs : List Byte) : Word := bs.foldl bytewiseUpdate Config.init

end Sys2Proof.Machine
end

