-- ==== Sys2Proof/Syntax.lean ====
section
/-! DEFINITION. The instruction set: the four legal bus transactions (R48), one constructor for each row of
spec/opcode_table.json. The only operand is the write data `D`, a 32-bit value taken whole (R47). -/

namespace Sys2Proof

/-- The legal transactions of R48. -/
inductive Instr where
  /-- WR_DR: feed the data word `d` to the CRC (R71). -/
  | wrDr (d : Word)
  /-- RD_DR: read the accumulator (R73). -/
  | rdDr
  /-- WR_CR: write the control register; bit 0 of `d` is RESET (R75). -/
  | wrCr (d : Word)
  /-- RD_CR: read the control register (R77). -/
  | rdCr
  deriving DecidableEq, Repr

end Sys2Proof
end

