-- ==== Sys2Proof/WellFormed.lean ====
section
/-! DEFINITION. What is well formed: a descriptor that names a legal transaction (R48, each check one of R49's conditions),
an instruction (every value of `Instr` is one, since the operand is any 32-bit value: R47), and the stricter host discipline
for CR writes that R15 recommends and U6 lets a checker ask for. -/

namespace Sys2Proof

/-- Only the word size is legal: SIZE, Q[5:4], is 10 (R32, R46). -/
def Descriptor.sizeOk (q : Descriptor) : Bool := q &&& 0b0110000#7 == 0b0100000#7

/-- Only DR (REG = 00) and CR (REG = 01) exist: Q[3] is 0 (R29, R50). -/
def Descriptor.regOk (q : Descriptor) : Bool := q &&& 0b0001000#7 == 0#7

/-- A word access is aligned: BYTE, Q[1:0], is 00 (R33). -/
def Descriptor.byteOk (q : Descriptor) : Bool := q &&& 0b0000011#7 == 0#7

/-- The descriptor names one of the four legal transactions (R48). -/
def Descriptor.wellFormed (q : Descriptor) : Bool :=
  Descriptor.sizeOk q && Descriptor.regOk q && Descriptor.byteOk q

/-- Every instruction is well formed: no value of the operand is refused (R47, R101). -/
def Instr.wellFormed : Instr → Bool
  | .wrDr _ => true
  | .rdDr   => true
  | .wrCr _ => true
  | .rdCr   => true

/-- The stricter discipline of R15 and R76, "software should write 0" to CR[31:1]: U6 lets a strict checker refuse the
other writes. The machine itself accepts them (R76). -/
def Instr.disciplined : Instr → Bool
  | .wrDr _ => true
  | .rdDr   => true
  | .wrCr d => d >>> 1 == 0#32
  | .rdCr   => true

end Sys2Proof
end

