-- ==== Sys2Proof/Decode.lean ====
section
/-! DEFINITION. The encoding of requests (R45-R52): the request ports packed into the descriptor `Q`, the total decoder of
R52, the encoder written from the opcode map R48, and the byte container in which a transaction is written down for
spec/opcode_table.json's numbering (the model's own, log entry 2). -/

namespace Sys2Proof

/-- The SIZE field of a descriptor, Q[5:4] (R45). -/
def Descriptor.sizeField (q : Descriptor) : BitVec 2 := BitVec.extractLsb' 4 2 q

/-- The REG field of a descriptor, Q[3:2] (R45). -/
def Descriptor.regField (q : Descriptor) : BitVec 2 := BitVec.extractLsb' 2 2 q

/-- The BYTE field of a descriptor, Q[1:0] (R45). -/
def Descriptor.byteField (q : Descriptor) : BitVec 2 := BitVec.extractLsb' 0 2 q

/-- The WE field of a descriptor, Q[6] (R45). -/
def Descriptor.weField (q : Descriptor) : Bool := q[6]

/-- The request ports REQ_WE, REQ_SIZE, REQ_ADDR and REQ_WDATA (R25). -/
structure Request where
  we    : Bool
  size  : BitVec 2
  addr  : BitVec 4
  wdata : Word
  deriving DecidableEq, Repr

/-- `Q = {WE, SIZE, REG, BYTE}`, WE in the high bit; REG and BYTE are REQ_ADDR[3:2] and REQ_ADDR[1:0] (R45). -/
def Request.descriptor (r : Request) : Descriptor := BitVec.ofBool r.we ++ r.size ++ r.addr

/-- The request whose descriptor is `q` and whose write data is `d` (R45). -/
def Request.ofDescriptor (q : Descriptor) (d : Word) : Request where
  we    := Descriptor.weField q
  size  := Descriptor.sizeField q
  addr  := BitVec.extractLsb' 0 4 q
  wdata := d

/-- The cause labels of an error response (R99). They exist in the model only: the bus carries one error bit. -/
inductive Cause where
  /-- ERR_SIZE_RSVD: SIZE = 11. -/
  | sizeRsvd
  /-- ERR_ADDR: REG is 10 or 11 and SIZE is not 11. -/
  | addr
  /-- ERR_SIZE: a byte or halfword access to DR or CR. -/
  | size
  /-- ERR_ALIGN: a misaligned word access to DR or CR. -/
  | align
  deriving DecidableEq, Repr

/-- The code of a cause label (R99). -/
def Cause.code : Cause → Nat
  | .sizeRsvd => 1
  | .addr     => 2
  | .size     => 3
  | .align    => 4

/-- What a descriptor names: a legal transaction, or an illegal request with its class (R52). -/
inductive Decoded where
  | legal   (i : Instr)
  | illegal (c : Cause)
  deriving DecidableEq, Repr

/-- The total decoder of R52, its tests in the order of R100. The operand of a write is taken whole from the write data; a
read has none (R47). -/
def decode (q : Descriptor) (d : Word) : Decoded :=
  if Descriptor.sizeField q = 0b11#2 then .illegal .sizeRsvd
  else if Descriptor.regField q = 0b10#2 ∨ Descriptor.regField q = 0b11#2 then .illegal .addr
  else if Descriptor.sizeField q ≠ 0b10#2 then .illegal .size
  else if Descriptor.byteField q ≠ 0b00#2 then .illegal .align
  else if Descriptor.regField q = 0b00#2 ∧ Descriptor.weField q = true then .legal (.wrDr d)
  else if Descriptor.regField q = 0b00#2 ∧ Descriptor.weField q = false then .legal .rdDr
  else if Descriptor.regField q = 0b01#2 ∧ Descriptor.weField q = true then .legal (.wrCr d)
  else .legal .rdCr

/-- What a request on the ports names. -/
def Request.decoded (r : Request) : Decoded := decode r.descriptor r.wdata

/-- The instruction a decoding names, if it is legal. -/
def Decoded.instr? : Decoded → Option Instr
  | .legal i   => some i
  | .illegal _ => none

/-- The descriptor and the write data of an instruction, from the opcode map R48. A read's write data is ignored (R35), and
the encoder drives 0. -/
def encode : Instr → Descriptor × Word
  | .wrDr d => (0b1100000#7, d)
  | .rdDr   => (0b0100000#7, 0#32)
  | .wrCr d => (0b1100100#7, d)
  | .rdCr   => (0b0100100#7, 0#32)

/-- The request that a host drives for an instruction. -/
def Instr.request (i : Instr) : Request := Request.ofDescriptor (encode i).1 (encode i).2

/-! ### The byte container (log entry 2)

The first byte holds `Q` in its bits 6:0 and 0 in bit 7. A write's operand follows, its four bytes in the order of the bus
lanes, lane 0 first (R30). -/

/-- Byte lane `k` of a 32-bit value, bits 8k+7:8k (R25, R30). -/
def byteLane (w : Word) (k : Nat) : Byte := BitVec.extractLsb' (8 * k) 8 w

/-- The 32-bit value whose byte lanes 0 to 3 are the given bytes, as R84 writes it. -/
def wordOfBytes (b0 b1 b2 b3 : Byte) : Word :=
  b0.setWidth 32 ||| (b1.setWidth 32 <<< 8) ||| (b2.setWidth 32 <<< 16) ||| (b3.setWidth 32 <<< 24)

/-- Why a list of bytes is no container of a transaction. -/
inductive ByteError where
  /-- There is no byte. -/
  | empty
  /-- Bit 7 of the first byte is set, so the byte is no 7-bit descriptor. -/
  | notDescriptor
  /-- A write's four operand bytes are not all there. -/
  | truncated
  deriving DecidableEq, Repr

/-- The request written in a container, and the bytes after it. Descriptors with WE = 1 carry an operand, the others do not
(R45). -/
def requestOfBytes : List Byte → Except ByteError (Request × List Byte)
  | [] => .error .empty
  | q :: rest =>
    if q[7] then .error .notDescriptor
    else if q[6] then
      match rest with
      | b0 :: b1 :: b2 :: b3 :: rest' =>
        .ok (Request.ofDescriptor (q.setWidth 7) (wordOfBytes b0 b1 b2 b3), rest')
      | _ => .error .truncated
    else .ok (Request.ofDescriptor (q.setWidth 7) 0#32, rest)

/-- The decoder over any list of bytes: what the container names, and the bytes after it, or the name of what is wrong. -/
def decodeBytes (bs : List Byte) : Except ByteError (Decoded × List Byte) :=
  match requestOfBytes bs with
  | .error e      => .error e
  | .ok (r, rest) => .ok (r.decoded, rest)

/-- The container of an instruction. -/
def encodeBytes (i : Instr) : List Byte :=
  let q := (encode i).1.setWidth 8
  let d := (encode i).2
  if q[6] then [q, byteLane d 0, byteLane d 1, byteLane d 2, byteLane d 3] else [q]

/-- The five container bytes of the table's number `w`: its bits below `nbits`, and 0 above them. -/
def tableBytes (nbits w : Nat) : List Byte :=
  let v := w % 2 ^ nbits
  [BitVec.ofNat 8 v, BitVec.ofNat 8 (v / 2 ^ 8), BitVec.ofNat 8 (v / 2 ^ 16), BitVec.ofNat 8 (v / 2 ^ 24),
    BitVec.ofNat 8 (v / 2 ^ 32)]

/-- The request that the table's number `w` stands for, if it is one. -/
def tableRequest (nbits w : Nat) : Option Request :=
  match requestOfBytes (tableBytes nbits w) with
  | .error _   => none
  | .ok (r, _) => some r

/-- The instruction the decoder reads from an instruction whose bits are `w`, as spec/opcode_table.json numbers them: `Q` is
bits 6:0, and the operand is bits 39:8. -/
def decodeTableWord (nbits w : Nat) : Option Instr :=
  match tableRequest nbits w with
  | none   => none
  | some r => r.decoded.instr?

end Sys2Proof
end

