-- ==== Sys2Proof/Machine/State.lean ====
section
/-! DEFINITION. The machine's state as plain data: the architectural state of 10_state.md, the transfer in progress that R26
implies, the response ports of R25, and what the outside world has queued for the block (R45: the block's "program" is the
host's transaction sequence). -/

namespace Sys2Proof.Machine

open Sys2Proof

/-- The response of a completed transaction (R82). -/
inductive Resp where
  /-- RSP_ERR = 0, with the read data. -/
  | ok (rdata : Word)
  /-- RSP_ERR = 1, with the cause label that exists in the model only (R99). -/
  | err (c : Cause)
  deriving DecidableEq, Repr

/-- The input ports RST, REQ_VALID and REQ_* in one cycle of CLK (R25). -/
structure Pins where
  rst      : Bool
  reqValid : Bool
  req      : Request
  deriving DecidableEq, Repr

/-- A bus access as a master issues it, with its full bus address; the platform turns it into REQ_ADDR (R28). -/
structure BusAccess where
  we    : Bool
  size  : BitVec 2
  addr  : Nat
  wdata : Word
  deriving DecidableEq, Repr

/-- What the outside world does to the block next (R25, R26, R28, R112, R113). -/
inductive HostEvent where
  /-- A transaction, presented when the port is free and held until it completes (R26, R27). -/
  | request (r : Request)
  /-- A bus access through the platform's decode of BASE (R28). -/
  | access (a : BusAccess)
  /-- One rising edge of CLK with the given input pins: a cycle of a transaction, an idle cycle (R78) or a reset (R113). -/
  | cycle (p : Pins)
  /-- The platform stops CLK for a while: there is no edge (R112). -/
  | clockStop
  /-- Power is removed and comes back (R112, R118). -/
  | powerCycle
  deriving DecidableEq, Repr

/-- Whether a hardware reset has been applied since power-up (R118). -/
inductive Power where
  /-- No rising edge with RST = 1 since power-up: state and responses are unspecified. -/
  | unreset
  /-- A hardware reset has been applied since power-up. -/
  | operational
  deriving DecidableEq, Repr

/-- The state of one instance of the block, with what stands before its port. -/
structure State where
  /-- ACC, the accumulator (R13). It is also what DR reads (R16). -/
  acc         : Word
  /-- SHIFT_CNT, the shifts that remain of a serial word update, 0 to 31 (R14). -/
  shiftCnt    : Fin 32
  /-- The data shift register of the alternative serial datapath (R65). -/
  dataShift   : Word
  /-- The transaction in progress: the request its host holds on the ports, if one is outstanding (R26, R27). -/
  outstanding : Option Request
  /-- The response in the cycle that the last step completed; none where RSP_READY was 0 (R25, R26, R82). -/
  resp        : Option Resp
  /-- Whether a hardware reset has been applied since power-up (R118). -/
  power       : Power
  /-- What the outside world does next, first event first (R27, R45). -/
  pending     : List HostEvent
  /-- The model's own counter: how many edges have taken fresh unspecified values (R118, log entry 4). -/
  freeIdx     : Nat
  deriving DecidableEq, Repr

/-- The reasons the machine would stop with a fault: there are none. The block never stops or hangs because of an error, and
its only exception mechanism is the error response of a transaction, after which it goes on (R80, R97). -/
inductive Fault where
  deriving DecidableEq, Repr

/-- The reasons the model gives no next state. No legal transaction on a reset block ends in one. -/
inductive Refusal where
  /-- Raised by `exec` for an instruction that has no meaning in the model. Safe: no next state is claimed. No arm raises it. -/
  | notModelled (mnemonic : String)
  /-- Raised when a request is presented before the first hardware reset since power-up: the responses are unspecified, and a
  model refuses a run without a reset (R118, U4, U13). Safe: no next state is claimed. -/
  | noResetSincePowerUp
  /-- Raised when the host changes or withdraws its request while it is outstanding: the behaviour is unspecified, and a model
  refuses such a run (R122, U3). Safe: no next state is claimed. -/
  | requestChanged
  deriving DecidableEq, Repr

/-- The machine right after a hardware reset (R21, R113): ACC = INIT, SHIFT_CNT = 0, nothing outstanding, no response, and no
event queued. The data shift register is 0 (log entry 5). -/
def State.reset : State where
  acc         := Config.init
  shiftCnt    := 0
  dataShift   := 0#32
  outstanding := none
  resp        := none
  power       := .operational
  pending     := []
  freeIdx     := 0

end Sys2Proof.Machine
end

