-- ==== Sys2Proof/Machine/Flags.lean ====
section
/-! DEFINITION. The block has no flags, condition codes or status register (R17). What a transaction reports stands on the
response ports only, and this file gives those ports' values (R25, R35, R78, R82, R98). -/

namespace Sys2Proof.Machine

open Sys2Proof

/-- The output ports RSP_READY, RSP_ERR and RSP_RDATA (R25). -/
structure ResponsePorts where
  ready : Bool
  err   : Bool
  rdata : Word
  deriving DecidableEq, Repr

/-- The ports in a cycle in which nothing completes: an idle cycle, a wait state, or a cycle with RST = 1 (R63, R78, R113). -/
def quietPorts : ResponsePorts := ⟨false, false, 0x00000000#32⟩

/-- The ports in the completing cycle of a transaction (R82): an error response has read data 0 and carries no cause (R98,
R99). -/
def Resp.ports : Resp → ResponsePorts
  | .ok v  => ⟨true, false, v⟩
  | .err _ => ⟨true, true, 0x00000000#32⟩

/-- The ports in the cycle that the last step completed. Between power-up and the first hardware reset they are unspecified
(R118): free values, common to all instances with equal `freeIdx` (DESIGN CHOICE, log entry 4). -/
def State.ports (s : State) : ResponsePorts :=
  match s.power with
  | .unreset => ⟨Config.powerUpReady s.freeIdx, Config.powerUpErr s.freeIdx, Config.powerUpRdata s.freeIdx⟩
  | .operational =>
    match s.resp with
    | none   => quietPorts
    | some r => r.ports

/-- What a host may rely on in a response: all error causes are one observation (R82, R99), and the read data of a write or
of an error carries no meaning (R35, U2). -/
inductive Observation where
  | readData (v : Word)
  | written
  | error
  deriving DecidableEq, Repr

/-- The host's observation of a response to a write (`we` true) or a read. -/
def Resp.observed (we : Bool) : Resp → Observation
  | .ok v  => if we then .written else .readData v
  | .err _ => .error

end Sys2Proof.Machine
end

