-- ==== Sys2Proof/Machine/Operands.lean ====
section
/-! DEFINITION. The operand forms: the write data taken whole (R47), CR.RESET in bit 0 of it (R15), and the byte lanes of the
bus with the host's two byte orders (R30, R86). -/

namespace Sys2Proof.Machine

open Sys2Proof

/-- CR.RESET, bit 0 of the data of a CR write; bits 31:1 are ignored (R15, R75, R76). -/
def resetBit (d : Word) : Bool := d[0]

/-- `bswap32(v)` (R8). -/
def bswap32 (v : Word) : Word :=
  byteLane v 0 ++ byteLane v 1 ++ byteLane v 2 ++ byteLane v 3

/-- The byte order of a host CPU (R86, D24). -/
inductive HostOrder where
  | little
  | big
  deriving DecidableEq, Repr

/-- A host's 32-bit load of four consecutive bytes of its memory, lowest address first. -/
def hostLoad : HostOrder → Byte → Byte → Byte → Byte → Word
  | .little, b0, b1, b2, b3 => wordOfBytes b0 b1 b2 b3
  | .big, b0, b1, b2, b3    => b0 ++ b1 ++ b2 ++ b3

/-- The word that a host stores to DR for four consecutive bytes (R86): a big-endian host swaps the loaded word itself, since
the block has no swap option. -/
def hostPresent : HostOrder → Byte → Byte → Byte → Byte → Word
  | .little, b0, b1, b2, b3 => hostLoad .little b0 b1 b2 b3
  | .big, b0, b1, b2, b3    => bswap32 (hostLoad .big b0 b1 b2 b3)

end Sys2Proof.Machine
end

