-- ==== Sys2Proof/Machine/Ops.lean ====
section
/-! DEFINITION. The named operations over the registers: reads and writes of DR and CR, the okay response, the error response
(the block's only exception: it saves nothing and transfers no control, and there is no return from it, R97, R102, R103), the
hardware reset, the idle cycle, and the edges at which state is unspecified. -/

namespace Sys2Proof.Machine

open Sys2Proof

/-- Reading DR gives ACC (R16). -/
def readDR (s : State) : Word := s.acc

/-- CR has no storage and always reads as 0 (R15, R76). -/
def readCR (_ : State) : Word := 0x00000000#32

/-- The register window read without a transaction, by REG (R29): DR, CR, and nothing at the reserved offsets. -/
def readWindow (reg : BitVec 2) (s : State) : Option Word :=
  if reg = 0b00#2 then some (readDR s)
  else if reg = 0b01#2 then some (readCR s)
  else none

/-- Load INIT into ACC (R15, R75, R113). -/
def loadInit (s : State) : State := { s with acc := Config.init }

/-- A write of DR delivers one word to the CRC update, and ACC takes the result (R16, R71). -/
def writeDR (d : Word) (s : State) : State := { s with acc := crcUpdate s.acc d }

/-- A write of CR: RESET = 1 loads INIT, and everything else is ignored (R15, R75, R76). -/
def writeCR (d : Word) (s : State) : State := if resetBit d then loadInit s else s

/-- The okay response with its read data (R82). -/
def respondOk (v : Word) (s : State) : State := { s with resp := some (.ok v) }

/-- The error response of an illegal request, `raise BusError(c)`: no other state changes (R79, R80, R98). -/
def busError (c : Cause) (s : State) : State := { s with resp := some (.err c) }

/-- A cycle in which nothing completes and nothing else happens: the idle cycle (R78). -/
def idle (s : State) : State := { s with resp := none }

/-- A rising edge of CLK with RST = 1 (R113): ACC = INIT, SHIFT_CNT = 0, an outstanding transaction is abandoned without a
response (R114), and the block is reset since power-up (R118). The response ports of that cycle are quiet (R113). DESIGN
CHOICE (log entry 25): so they are in the first such cycle after power-up, whose responses R118 calls unspecified until its
edge. -/
def hardReset (s : State) : State :=
  { s with
    acc := Config.init, shiftCnt := 0, dataShift := 0#32, outstanding := none, resp := none, power := .operational }

/-- Fresh unspecified values in ACC, SHIFT_CNT and the data shift register (R118, log entry 4). DESIGN CHOICE (log entry 4): the
constants are common to all instances, so two instances with equal `freeIdx` take equal values, which the spec does not say. -/
def unspecified (s : State) : State :=
  { s with
    acc := Config.powerUpAcc s.freeIdx, shiftCnt := Config.powerUpShiftCnt s.freeIdx,
    dataShift := Config.powerUpDataShift s.freeIdx, outstanding := none, resp := none, power := .unreset,
    freeIdx := s.freeIdx + 1 }

end Sys2Proof.Machine
end

