-- ==== Sys2Proof/Machine/ControlRegister.lean ====
section
/-! DEFINITION. The meanings of the control register's transactions, WR_CR and RD_CR (41_register_access.md section 2). -/

namespace Sys2Proof.Machine

open Sys2Proof

/-- WR_CR (R75): `if D[0] == 1 then ACC <- INIT`, response OK(0). -/
def execWrCr (d : Word) (s : State) : Host.Outcome State Fault Refusal :=
  .next (respondOk 0x00000000#32 (writeCR d s))

/-- RD_CR (R77): response OK(0), ACC unchanged. -/
def execRdCr (s : State) : Host.Outcome State Fault Refusal :=
  .next (respondOk (readCR s) s)

end Sys2Proof.Machine
end

