-- ==== Sys2Proof/Machine/DataRegister.lean ====
section
/-! DEFINITION. The meanings of the data register's transactions, WR_DR and RD_DR (41_register_access.md section 1). -/

namespace Sys2Proof.Machine

open Sys2Proof

/-- WR_DR (R71): `ACC <- crc_update(ACC, D)`, response OK(0). -/
def execWrDr (d : Word) (s : State) : Host.Outcome State Fault Refusal :=
  .next (respondOk 0x00000000#32 (writeDR d s))

/-- RD_DR (R73): response OK(ACC), ACC unchanged. -/
def execRdDr (s : State) : Host.Outcome State Fault Refusal :=
  .next (respondOk (readDR s) s)

end Sys2Proof.Machine
end

