-- ==== Sys2Proof/Machine/Dispatch.lean ====
section
/-! DEFINITION. One arm for each legal transaction (R81). -/

namespace Sys2Proof.Machine

open Sys2Proof

def exec (i : Instr) (s : State) : Host.Outcome State Fault Refusal :=
  match i with
  | .wrDr d => Sys2Proof.Machine.execWrDr d s
  | .rdDr => Sys2Proof.Machine.execRdDr s
  | .wrCr d => Sys2Proof.Machine.execWrCr d s
  | .rdCr => Sys2Proof.Machine.execRdCr s

end Sys2Proof.Machine
end

