-- ==== Sys2Proof/Machine/Cycle.lean ====
section
/-! DEFINITION. The block cycle by cycle (R25-R27, R62-R65, R78, R98, R105, R113, R114, R118, R122, R125): one rising edge of
CLK under given input pins, for every value of CRC_IMPL. -/

namespace Sys2Proof.Machine

open Sys2Proof

/-- The input pins while a host presents or holds the request `r`. -/
def holdPins (r : Request) : Pins := ⟨false, true, r⟩

/-- A request whose fields are all 0, for cycles in which REQ_VALID is 0 and the other request ports do not matter. -/
def noRequest : Request := ⟨false, 0b00#2, 0x0#4, 0x00000000#32⟩

/-- The input pins of an idle cycle (R78). -/
def idlePins : Pins := ⟨false, false, noRequest⟩

/-- The input pins of a cycle with RST = 1 (R113). -/
def resetPins : Pins := ⟨true, false, noRequest⟩

/-- ACC after one cycle of a serial WR_DR with data `d` (R63; R65 for the bit-input form). The first cycle is the one in which
SHIFT_CNT is 0. -/
def serialAcc (form : SerialForm) (d : Word) (s : State) : Word :=
  match form with
  | .xorShift => if s.shiftCnt = 0 then crcStep (s.acc ^^^ d) else crcStep s.acc
  | .bitInput => lfsrStep s.acc ((if s.shiftCnt = 0 then d else s.dataShift)[31])

/-- The data shift register after one cycle of a serial WR_DR with data `d`: it exists in the bit-input form only (R65). -/
def serialDataShift (form : SerialForm) (d : Word) (s : State) : Word :=
  match form with
  | .xorShift => s.dataShift
  | .bitInput => (if s.shiftCnt = 0 then d else s.dataShift) <<< 1

/-- SHIFT_CNT after one cycle of a serial WR_DR (R63). -/
def serialShiftCnt (s : State) : Fin 32 := if s.shiftCnt = 0 then 31 else s.shiftCnt - 1

/-- RSP_READY during a cycle of a serial WR_DR: `SHIFT_CNT == 1` (R63). -/
def serialReady (s : State) : Bool := s.shiftCnt == 1

/-- The edge that ends one cycle of a serial WR_DR, presented by the request `r` with data `d` (R63, R65). -/
def serialEdge (form : SerialForm) (r : Request) (d : Word) (s : State) : State :=
  { s with
    acc         := serialAcc form d s
    dataShift   := serialDataShift form d s
    shiftCnt    := serialShiftCnt s
    outstanding := if serialReady s then none else some r
    resp        := if serialReady s then some (.ok 0x00000000#32) else none }

/-- The edge that ends one cycle of a WR_DR under CRC_IMPL: the parallel datapath completes in this cycle (R62). -/
def wrDrEdge (impl : CrcImpl) (r : Request) (d : Word) (s : State) : State :=
  match impl with
  | .parallel    => respondOk 0x00000000#32 (writeDR d { s with outstanding := none })
  | .serial form => serialEdge form r d s

/-- The edge that ends one cycle in which the request `r` is served: everything but a serial WR_DR completes in its first
cycle (R63, R98, R125). -/
def serveCycle (impl : CrcImpl) (r : Request) (s : State) : Host.Outcome State Fault Refusal :=
  match r.decoded with
  | .illegal c       => .next (busError c s)
  | .legal (.wrDr d) => .next (wrDrEdge impl r d s)
  | .legal .rdDr     => exec .rdDr s
  | .legal (.wrCr d) => exec (.wrCr d) s
  | .legal .rdCr     => exec .rdCr s

/-- One rising edge of CLK on a block that has been reset and whose RST is 0 (R26, R27, R78). A host that changes or withdraws
its request while it is outstanding is refused (R122). -/
def tickRunning (impl : CrcImpl) (p : Pins) (s : State) : Host.Outcome State Fault Refusal :=
  match s.outstanding with
  | none   => if p.reqValid then serveCycle impl p.req s else .next (idle s)
  | some r => if p.reqValid ∧ p.req = r then serveCycle impl r s else .refused .requestChanged

/-- One rising edge of CLK (R25). RST wins over everything (R105, R113, R114). Before the first reset since power-up a request
is refused, and a cycle without one leaves unspecified values (R118). -/
def tick (impl : CrcImpl) (p : Pins) (s : State) : Host.Outcome State Fault Refusal :=
  if p.rst then .next (hardReset s)
  else
    match s.power with
    | .unreset     => if p.reqValid then .refused .noResetSincePowerUp else .next (unspecified s)
    | .operational => tickRunning impl p s

/-- The number of cycles a transaction takes, from its first to its completing cycle (R125). -/
def latency (impl : CrcImpl) (r : Request) : Nat :=
  match r.decoded with
  | .illegal _       => 1
  | .legal (.wrDr _) =>
    match impl with
    | .parallel => 1
    | .serial _ => Config.serialCycles
  | .legal .rdDr     => 1
  | .legal (.wrCr _) => 1
  | .legal .rdCr     => 1

/-- The input pins over the cycles of one transaction: the request held stable until it completes (R26, R122). -/
def transactionPins (impl : CrcImpl) (r : Request) : List Pins :=
  List.replicate (latency impl r) (holdPins r)

/-- One step after another: the first stop ends the run. -/
def andThen {σ τ φ ρ : Type} (o : Host.Outcome σ φ ρ) (f : σ → Host.Outcome τ φ ρ) : Host.Outcome τ φ ρ :=
  match o with
  | .next s    => f s
  | .fault e   => .fault e
  | .refused e => .refused e

/-- A run cycle by cycle: the final state and, for each cycle, the response that completed in it. -/
def runCycles (impl : CrcImpl) : List Pins → State → Host.Outcome (State × List (Option Resp)) Fault Refusal
  | [], s      => .next (s, [])
  | p :: ps, s =>
    andThen (tick impl p s) fun s' =>
      andThen (runCycles impl ps s') fun t => .next (t.1, s'.resp :: t.2)

end Sys2Proof.Machine
end

