-- ==== Sys2Proof/Machine/Transaction.lean ====
section
/-! DEFINITION. The block transaction by transaction (R20, R26, R27, R36, R37, R81), the platform's decode of BASE (R28, R43),
and what each event of the outside world does. A transaction is presented when the port is free: one that is issued while a
serial WR_DR is outstanding waits until that write completes (R27, R73, U5). -/

namespace Sys2Proof.Machine

open Sys2Proof

/-- At most `n` further cycles of the outstanding transaction, its host holding the request (R26, R122). -/
def holdUntilDone (impl : CrcImpl) : Nat → State → State
  | 0, s     => s
  | n + 1, s =>
    match s.outstanding with
    | none   => s
    | some r => holdUntilDone impl n (wrDrEdge impl r r.wdata s)

/-- The state when the port is free: an outstanding serial WR_DR has taken the SHIFT_CNT shifts that remain (R14, R27). -/
def settle (impl : CrcImpl) (s : State) : State := holdUntilDone impl s.shiftCnt.val s

/-- One whole transaction (R81): a legal one has its own meaning, and an illegal one gets the error response (R79). -/
def transact (impl : CrcImpl) (r : Request) (s : State) : Host.Outcome State Fault Refusal :=
  match s.power with
  | .unreset     => .refused .noResetSincePowerUp
  | .operational =>
    match r.decoded with
    | .legal i   => exec i (settle impl s)
    | .illegal c => .next (busError c (settle impl s))

/-- The byte offset REQ_ADDR of a bus address inside the window at `base`; none outside it (R28). -/
def windowOffset (base addr : Nat) : Option (BitVec 4) :=
  if base ≤ addr ∧ addr < base + Config.windowBytes then some (BitVec.ofNat 4 (addr - base)) else none

/-- The request that the platform drives for a bus access; none for an address outside the window (R28). -/
def BusAccess.request? (base : Nat) (a : BusAccess) : Option Request :=
  (windowOffset base a.addr).map fun off => ⟨a.we, a.size, off, a.wdata⟩

/-- A bus access that is not for this block: REQ_VALID is not driven, and the block sees an idle cycle (R28, R78). -/
def unaddressed (impl : CrcImpl) (s : State) : Host.Outcome State Fault Refusal :=
  match s.power with
  | .unreset     => .next (unspecified s)
  | .operational => .next (idle (settle impl s))

/-- What one event of the outside world does to the block. While CLK is stopped there is no edge, so nothing but the response
of the last cycle is gone (R25, R112); after a loss of power the state is unspecified (R112, R118). -/
def applyEvent (p : Params) (ev : HostEvent) (s : State) : Host.Outcome State Fault Refusal :=
  match ev with
  | .request r  => transact p.crcImpl r s
  | .access a   =>
    match a.request? p.base with
    | some r => transact p.crcImpl r s
    | none   => unaddressed p.crcImpl s
  | .cycle pins => tick p.crcImpl pins s
  | .clockStop  => .next (idle s)
  | .powerCycle => .next (unspecified s)

/-- The pins when nothing is queued: a host holds its outstanding request until it completes (R26), and otherwise there is no
request. -/
def restPins (s : State) : Pins :=
  match s.outstanding with
  | none   => idlePins
  | some r => holdPins r

/-- One step of the block under given OPEN parameters: the next queued event, or a cycle without a new one. -/
def stepWith (p : Params) (s : State) : Host.Outcome State Fault Refusal :=
  match s.pending with
  | []         => tick p.crcImpl (restPins s) s
  | ev :: rest => applyEvent p ev { s with pending := rest }

/-- The state with the request that the table's number `w` stands for presented next, where `w` is a request at all. -/
def presentTableWord (s : State) (nbits w : Nat) : State :=
  match tableRequest nbits w with
  | some r => { s with pending := .request r :: s.pending }
  | none   => s

/-- A run over a sequence of transactions (R81): the final state and the responses, in order. -/
def runRequests (impl : CrcImpl) : List Request → State → Host.Outcome (State × List Resp) Fault Refusal
  | [], s      => .next (s, [])
  | r :: rs, s =>
    andThen (transact impl r s) fun s' =>
      andThen (runRequests impl rs s') fun t => .next (t.1, s'.resp.toList ++ t.2)

/-- The transaction-level function of R81 on ACC alone: the new ACC and the response. -/
def transactionModel (acc : Word) (q : Descriptor) (d : Word) : Word × Resp :=
  match decode q d with
  | .legal (.wrDr d) => (crcUpdate acc d, .ok 0x00000000#32)
  | .legal .rdDr     => (acc, .ok acc)
  | .legal (.wrCr d) => (if resetBit d then Config.init else acc, .ok 0x00000000#32)
  | .legal .rdCr     => (acc, .ok 0x00000000#32)
  | .illegal c       => (acc, .err c)

/-- The fold of R81's function over a host's transaction sequence. -/
def transactionRun : Word → List (Descriptor × Word) → Word × List Resp
  | acc, []            => (acc, [])
  | acc, (q, d) :: qds =>
    let now := transactionModel acc q d
    let later := transactionRun now.1 qds
    (later.1, now.2 :: later.2)

end Sys2Proof.Machine
end

