-- ==== Sys2Proof/Machine/Step.lean ====
section
/-! DEFINITION. One step of the instance whose OPEN parameters Config names, and the host's way to present an instruction. The
block fetches nothing (R40): its program is the sequence of events that its state holds (R45). -/

namespace Sys2Proof.Machine

open Sys2Proof

/-- One step: the next queued event, or a cycle without a new one. -/
def step (s : State) : Host.Outcome State Fault Refusal := stepWith Config.params s

/-- `s` with the transaction whose bits are `w` presented next (log entry 2). -/
def State.withFetchWord (s : State) (nbits w : Nat) : State := presentTableWord s nbits w

end Sys2Proof.Machine
end

