-- ==== Sys2Proof/Machine/HostSeq.lean ====
section
/-! DEFINITION. The host's side (42_host_sequences.md): framing a byte buffer into little-endian words, the two padding
policies, the `compute` sequence over the block, the residue check, and the rendering of a checksum. The block never sees
bytes (R83): these definitions bind the host. -/

namespace Sys2Proof.Machine

open Sys2Proof

/-- The host-level errors: `InvalidInput` (R88, R106), an error response to one of the host's transactions (R98), and a
computation that a hardware reset abandoned (R114, U10). -/
inductive HostError where
  | invalidInput
  | busError
  | abandoned
  deriving DecidableEq, Repr

/-- `MemRead(addr, n)`: `n` bytes of the host's own buffer memory from `addr` on (R9). A byte past the buffer's end is never
asked for by the sequences below; it is given as 0. -/
def memRead (mem : List Byte) (addr n : Nat) : List Byte := (List.range n).map fun k => mem.getD (addr + k) 0x00#8

/-- `word(buf, i)` (R84): the byte at the lowest offset becomes bits 7:0. -/
def bufWord (buf : List Byte) (i : Nat) : Word :=
  wordOfBytes (buf.getD (4 * i) 0x00#8) (buf.getD (4 * i + 1) 0x00#8) (buf.getD (4 * i + 2) 0x00#8)
    (buf.getD (4 * i + 3) 0x00#8)

/-- `be(buf, i)` (R85): the group read most significant byte first. -/
def bufWordBE (buf : List Byte) (i : Nat) : Word :=
  buf.getD (4 * i) 0x00#8 ++ buf.getD (4 * i + 1) 0x00#8 ++ buf.getD (4 * i + 2) 0x00#8 ++ buf.getD (4 * i + 3) 0x00#8

/-- The words of a buffer whose length is a multiple of 4, in buffer order (R83, R84). -/
def frame (buf : List Byte) : List Word := (List.range (buf.length / Config.wordBytes)).map (bufWord buf)

/-- The words that a host of the given byte order stores to DR (R86). -/
def hostFrame (order : HostOrder) (buf : List Byte) : List Word :=
  (List.range (buf.length / Config.wordBytes)).map fun i =>
    hostPresent order (buf.getD (4 * i) 0x00#8) (buf.getD (4 * i + 1) 0x00#8) (buf.getD (4 * i + 2) 0x00#8)
      (buf.getD (4 * i + 3) 0x00#8)

/-- The number of zero bytes that R87 and R89 append: `(4 - len mod 4) mod 4`. -/
def paddingBytes (len : Nat) : Nat := (4 - len % 4) % 4

/-- The buffer with zero bytes appended up to a multiple of 4 (R87, R89). -/
def zeroPadded (buf : List Byte) : List Byte := buf ++ List.replicate (paddingBytes buf.length) 0x00#8

/-- The words to feed for a buffer under PAD_POLICY (R87, R88). -/
def framedWords (policy : PadPolicy) (buf : List Byte) : Except HostError (List Word) :=
  if buf.length % 4 ≠ 0 ∧ policy = .reject then .error .invalidInput else .ok (frame (zeroPadded buf))

/-- `CRC.RESET` (R54). -/
def crcReset : Request := (Instr.wrCr 0x00000001#32).request

/-- `CRC.FEED w` (R54). -/
def crcFeed (w : Word) : Request := (Instr.wrDr w).request

/-- `CRC.RESULT` (R54). -/
def crcResult : Request := Instr.rdDr.request

/-- The transactions of one computation over given words (R89): the reset, one WR_DR per word, the read. -/
def computation (ws : List Word) : List Request := crcReset :: (ws.map crcFeed ++ [crcResult])

/-- The transactions of `compute(buf)` (R89), or the host-level failure before any transaction (R88). -/
def computeRequests (policy : PadPolicy) (buf : List Byte) : Except HostError (List Request) :=
  match framedWords policy buf with
  | .error e => .error e
  | .ok ws   => .ok (computation ws)

/-- Whether a response is an error response. -/
def Resp.isErr : Resp → Bool
  | .ok _  => false
  | .err _ => true

/-- What a host returns for the responses of a computation: the read data of the last one, if none is an error (R89, R127). -/
def hostVerdict (resps : List Resp) : Except HostError Word :=
  if resps.any Resp.isErr then .error .busError
  else
    match resps.getLast? with
    | some (.ok v)  => .ok v
    | some (.err _) => .error .busError
    | none          => .error .abandoned

/-- `compute(buf)` run on the block from a given state (R89): what the host returns, and the block's state after it. -/
def compute (impl : CrcImpl) (policy : PadPolicy) (buf : List Byte) (s : State) :
    Host.Outcome (Except HostError Word × State) Fault Refusal :=
  match computeRequests policy buf with
  | .error e => .next (.error e, s)
  | .ok rs   => andThen (runRequests impl rs s) fun t => .next (hostVerdict t.2, t.1)

/-- What a host returns for a computation run cycle by cycle: a hardware reset on the way abandons it (R114, U10). -/
def cycleVerdict (ps : List Pins) (resps : List (Option Resp)) : Except HostError Word :=
  if ps.any Pins.rst then .error .abandoned else hostVerdict (resps.filterMap id)

/-- A hexadecimal digit of R95, 0-9 and A-F. -/
def hexDigit (n : Nat) : Char := if n < 10 then Char.ofNat (48 + n) else Char.ofNat (55 + n)

/-- The 8 uppercase hexadecimal digits of a checksum, most significant first, zero-padded (R95). -/
def hexRender (w : Word) : List Char :=
  [7, 6, 5, 4, 3, 2, 1, 0].map fun k => hexDigit (w.toNat / 16 ^ k % 16)

/-- The name of a result marker, `<HEX>.txt` (R95). -/
def markerName (w : Word) : List Char := hexRender w ++ ['.', 't', 'x', 't']

end Sys2Proof.Machine
end

