-- ==== Sys2Proof/Machine/Asm.lean ====
section
/-! DEFINITION. The assembler notation of R53 and the pseudo-instructions of R54: statements, the ranges the assembler checks,
their expansion into events at the block's port, and the reading of one line of text. -/

namespace Sys2Proof.Machine

open Sys2Proof

/-- One statement (R53, R54). Literals are the numbers as written; `wellFormed` checks their ranges. -/
inductive Stmt where
  /-- `WR DR, imm`. -/
  | wrDR (imm : Nat)
  /-- `RD DR`, with the expected result that a listing may add. -/
  | rdDR (expected : Option Nat)
  /-- `WR CR, imm`. -/
  | wrCR (imm : Nat)
  /-- `RD CR`. -/
  | rdCR
  /-- `WR.s off, imm`: a raw write of the given SIZE. -/
  | wrRaw (size : BitVec 2) (off imm : Nat)
  /-- `RD.s off`: a raw read of the given SIZE. -/
  | rdRaw (size : BitVec 2) (off : Nat)
  /-- `IDLE n`. -/
  | idle (n : Nat)
  /-- `CRC.RESET`. -/
  | crcReset
  /-- `CRC.FEED w`. -/
  | crcFeed (w : Nat)
  /-- `CRC.RESULT`. -/
  | crcResult
  /-- `CRC.WORDS w1, ..., wn`. -/
  | crcWords (ws : List Nat)
  /-- `CRC.BUF bytes`. -/
  | crcBuf (bs : List Nat)
  deriving DecidableEq, Repr

/-- Why the assembler refuses a line or a statement. -/
inductive AsmError where
  /-- The text is no statement of R53 or R54. -/
  | notAStatement
  /-- A literal is outside 0 to 0xFFFFFFFF, an offset outside 0x0 to 0xF, or a byte outside 0x00 to 0xFF (R53). -/
  | outOfRange
  /-- `CRC.BUF` of a buffer that PAD_POLICY = REJECT refuses (R88). -/
  | invalidInput
  deriving DecidableEq, Repr

/-- A literal the assembler accepts (R53). -/
def literalOk (n : Nat) : Bool := n ≤ 0xFFFFFFFF

/-- An offset inside the register window (R53). -/
def offsetOk (n : Nat) : Bool := n ≤ 0xF

/-- A byte of a buffer (R10). -/
def byteLiteralOk (n : Nat) : Bool := n ≤ 0xFF

/-- The ranges the assembler checks (R53). DESIGN CHOICE (log entry 19): R53 gives the `<n>` of `IDLE <n>` no range, and it has
no upper bound here. -/
def Stmt.wellFormed : Stmt → Bool
  | .wrDR imm        => literalOk imm
  | .rdDR none       => true
  | .rdDR (some v)   => literalOk v
  | .wrCR imm        => literalOk imm
  | .rdCR            => true
  | .wrRaw _ off imm => offsetOk off && literalOk imm
  | .rdRaw _ off     => offsetOk off
  | .idle _          => true
  | .crcReset        => true
  | .crcFeed w       => literalOk w
  | .crcResult       => true
  | .crcWords ws     => ws.all literalOk
  | .crcBuf bs       => bs.all byteLiteralOk

/-- The event of a whole transaction for an instruction. -/
def instrEvent (i : Instr) : HostEvent := .request i.request

/-- The events of a statement whose literals are in range (R53, R54). -/
def expandStmt (policy : PadPolicy) : Stmt → Except AsmError (List HostEvent)
  | .wrDR imm           => .ok [instrEvent (.wrDr (BitVec.ofNat 32 imm))]
  | .rdDR _             => .ok [instrEvent .rdDr]
  | .wrCR imm           => .ok [instrEvent (.wrCr (BitVec.ofNat 32 imm))]
  | .rdCR               => .ok [instrEvent .rdCr]
  | .wrRaw size off imm => .ok [.request ⟨true, size, BitVec.ofNat 4 off, BitVec.ofNat 32 imm⟩]
  | .rdRaw size off     => .ok [.request ⟨false, size, BitVec.ofNat 4 off, 0x00000000#32⟩]
  | .idle n             => .ok (List.replicate n (.cycle idlePins))
  | .crcReset           => .ok [.request Machine.crcReset]
  | .crcFeed w          => .ok [.request (Machine.crcFeed (BitVec.ofNat 32 w))]
  | .crcResult          => .ok [.request Machine.crcResult]
  | .crcWords ws        => .ok (ws.map fun w => .request (Machine.crcFeed (BitVec.ofNat 32 w)))
  | .crcBuf bs          =>
    match computeRequests policy (bs.map fun b => BitVec.ofNat 8 b) with
    | .error _ => .error .invalidInput
    | .ok rs   => .ok (rs.map HostEvent.request)

/-- The assembler on one statement: a literal out of range is refused (R53). -/
def assembleStmt (policy : PadPolicy) (st : Stmt) : Except AsmError (List HostEvent) :=
  if st.wellFormed then expandStmt policy st else .error .outOfRange

/-- The assembler on a sequence of statements: the events in order. -/
def assemble (policy : PadPolicy) : List Stmt → Except AsmError (List HostEvent)
  | []        => .ok []
  | st :: sts =>
    match assembleStmt policy st, assemble policy sts with
    | .ok evs, .ok more => .ok (evs ++ more)
    | .error e, _       => .error e
    | .ok _, .error e   => .error e

/-! ### Reading one line of text -/

/-- The value of a hexadecimal digit, if the character is one. -/
def digitValue (c : Char) : Option Nat :=
  if 48 ≤ c.toNat ∧ c.toNat ≤ 57 then some (c.toNat - 48)
  else if 65 ≤ c.toNat ∧ c.toNat ≤ 70 then some (c.toNat - 55)
  else if 97 ≤ c.toNat ∧ c.toNat ≤ 102 then some (c.toNat - 87)
  else none

/-- The digits of a number in the given base, most significant first. -/
def readDigits (base : Nat) : Nat → List Char → Option Nat
  | acc, []      => some acc
  | acc, c :: cs =>
    match digitValue c with
    | some v => if v < base then readDigits base (acc * base + v) cs else none
    | none   => none

/-- A literal, hexadecimal with the prefix `0x` or decimal (R53). -/
def readLiteral : List Char → Option Nat
  | []                    => none
  | ['0', 'x']            => none
  | '0' :: 'x' :: c :: cs => readDigits 16 0 (c :: cs)
  | c :: cs               => readDigits 10 0 (c :: cs)

/-- An offset: `DR` stands for 0x0 and `CR` for 0x4 (R53). -/
def readOffset (t : List Char) : Option Nat :=
  if t = ['D', 'R'] then some 0x0 else if t = ['C', 'R'] then some 0x4 else readLiteral t

/-- The token read so far, if there is one. -/
def flushToken (t : List Char) : List (List Char) := if t.isEmpty then [] else [t]

/-- The tokens of a line: words, and the marks `,` `[` `]` each alone. A `;` begins a comment (R53). -/
def tokenize : List Char → List Char → List (List Char)
  | t, []      => flushToken t
  | t, c :: cs =>
    if c = ';' then flushToken t
    else if c = ' ' then flushToken t ++ tokenize [] cs
    else if c = ',' ∨ c = '[' ∨ c = ']' then flushToken t ++ [c] :: tokenize [] cs
    else tokenize (t ++ [c]) cs

/-- One or more literals separated by commas. -/
def readList : List (List Char) → Option (List Nat)
  | []             => none
  | [t]            => (readLiteral t).map fun n => [n]
  | t :: m :: rest =>
    if m = [','] then
      match readLiteral t, readList rest with
      | some n, some ns => some (n :: ns)
      | _, _            => none
    else none

/-- SIZE of the letter of a raw access: B, H, W, X (R53). -/
def sizeOfLetter (c : Char) : Option (BitVec 2) :=
  if c = 'B' then some 0b00#2
  else if c = 'H' then some 0b01#2
  else if c = 'W' then some 0b10#2
  else if c = 'X' then some 0b11#2
  else none

/-- The operands of `WR`. -/
def readWrite : List (List Char) → Option Stmt
  | [reg, m, imm] =>
    if m ≠ [','] then none
    else if reg = ['D', 'R'] then (readLiteral imm).map .wrDR
    else if reg = ['C', 'R'] then (readLiteral imm).map .wrCR
    else none
  | _ => none

/-- The operands of `RD`. -/
def readRead : List (List Char) → Option Stmt
  | [reg] => if reg = ['D', 'R'] then some (.rdDR none) else if reg = ['C', 'R'] then some .rdCR else none
  | [reg, arrow, v] =>
    if reg = ['D', 'R'] ∧ arrow = ['-', '>'] then (readLiteral v).map fun n => .rdDR (some n) else none
  | _ => none

/-- The operands of a raw write. -/
def readRawWrite (size : BitVec 2) : List (List Char) → Option Stmt
  | [off, m, imm] =>
    if m = [','] then
      match readOffset off, readLiteral imm with
      | some o, some n => some (.wrRaw size o n)
      | _, _           => none
    else none
  | _ => none

/-- The operands of a raw read. -/
def readRawRead (size : BitVec 2) : List (List Char) → Option Stmt
  | [off] => (readOffset off).map fun o => .rdRaw size o
  | _     => none

/-- The bytes of `CRC.BUF [b0, ...]`, the closing mark last (R10). -/
def readByteList : List (List Char) → Option (List Nat)
  | [['['], [']']]  => some []
  | ['['] :: rest   => if rest.getLast? = some [']'] then readList rest.dropLast else none
  | _               => none

/-- The statement that a line's tokens spell. DESIGN CHOICE (log entry 19): the `<n>` of `IDLE <n>`, to which R53 gives no form,
is a literal as `readLiteral` reads one. -/
def readTokens : List (List Char) → Option Stmt
  | [] => none
  | t :: args =>
    if t = ['W', 'R'] then readWrite args
    else if t = ['R', 'D'] then readRead args
    else if t = ['I', 'D', 'L', 'E'] then
      match args with
      | [n] => (readLiteral n).map .idle
      | _   => none
    else if t = ['C', 'R', 'C', '.', 'R', 'E', 'S', 'E', 'T'] then if args = [] then some .crcReset else none
    else if t = ['C', 'R', 'C', '.', 'R', 'E', 'S', 'U', 'L', 'T'] then if args = [] then some .crcResult else none
    else if t = ['C', 'R', 'C', '.', 'F', 'E', 'E', 'D'] then
      match args with
      | [w] => (readLiteral w).map .crcFeed
      | _   => none
    else if t = ['C', 'R', 'C', '.', 'W', 'O', 'R', 'D', 'S'] then (readList args).map .crcWords
    else if t = ['C', 'R', 'C', '.', 'B', 'U', 'F'] then (readByteList args).map .crcBuf
    else
      match t with
      | ['W', 'R', '.', c] => (sizeOfLetter c).bind fun size => readRawWrite size args
      | ['R', 'D', '.', c] => (sizeOfLetter c).bind fun size => readRawRead size args
      | _                  => none

/-- The character that opens and closes ASCII text (R10). -/
def quoteMark : Char := Char.ofNat 34

/-- The characters up to the closing quote mark as their codes, and the characters after it. DESIGN CHOICE (log entry 19): a
`;` inside the quotes is text and begins no comment, where R53 names no exception; and a character outside ASCII, on which
R10 is silent, stands for its code, which `byteLiteralOk` refuses above 0xFF. -/
def readQuoted : List Char → Option (List Nat × List Char)
  | []      => none
  | c :: cs => if c = quoteMark then some ([], cs) else (readQuoted cs).map fun p => (c.toNat :: p.1, p.2)

/-- Spaces at the start of a line dropped. -/
def dropSpaces : List Char → List Char
  | []      => []
  | c :: cs => if c = ' ' then dropSpaces cs else c :: cs

/-- `CRC.BUF` with ASCII text in quotes: nothing but a comment may follow the text (R10, R54). -/
def readTextBuf (line : List Char) : Option Stmt :=
  let l := dropSpaces line
  if l.take 7 = ['C', 'R', 'C', '.', 'B', 'U', 'F'] then
    match dropSpaces (l.drop 7) with
    | c :: cs =>
      if c = quoteMark then
        match readQuoted cs with
        | some (bs, rest) => if tokenize [] rest = [] then some (.crcBuf bs) else none
        | none            => none
      else none
    | [] => none
  else none

/-- The statement on one line; none for a line that is blank or only a comment (R53). -/
def readLine (line : List Char) : Except AsmError (Option Stmt) :=
  match readTextBuf line with
  | some st => .ok (some st)
  | none    =>
    match tokenize [] line with
    | [] => .ok none
    | ts =>
      match readTokens ts with
      | some st => .ok (some st)
      | none    => .error .notAStatement

end Sys2Proof.Machine
end

