-- ==== Sys2Proof/Machine/Platform.lean ====
section
/-! DEFINITION. A platform with any number of instances of the block (R44, R110): each has its own parameters, window and
state, and instances share nothing. Masters' bus accesses reach the instances one after another (R44, D30). -/

namespace Sys2Proof.Machine

open Sys2Proof

/-- One instance of the block in a platform (R110). -/
structure BlockUnit where
  params : Params
  state  : State
  deriving DecidableEq, Repr

/-- One event at one instance. -/
def BlockUnit.apply (u : BlockUnit) (ev : HostEvent) : Host.Outcome BlockUnit Fault Refusal :=
  andThen (applyEvent u.params ev u.state) fun s => .next { u with state := s }

/-- One bus access on the platform's bus: every instance decodes it against its own BASE (R28), and those it is not for see no
request. -/
def platformAccess (a : BusAccess) : List BlockUnit → Host.Outcome (List BlockUnit) Fault Refusal
  | []      => .next []
  | u :: us =>
    andThen (u.apply (.access a)) fun u' =>
      andThen (platformAccess a us) fun us' => .next (u' :: us')

/-- One event at the instance number `k` alone, such as its own reset (R110). -/
def platformAt (ev : HostEvent) : Nat → List BlockUnit → Host.Outcome (List BlockUnit) Fault Refusal
  | _, []          => .next []
  | 0, u :: us     => andThen (u.apply ev) fun u' => .next (u' :: us)
  | k + 1, u :: us => andThen (platformAt ev k us) fun us' => .next (u :: us')

/-- The windows of a platform's instances do not overlap: their BASE values differ. -/
def distinctWindows (us : List BlockUnit) : Bool := (us.map fun u => u.params.baseBlock).Nodup

end Sys2Proof.Machine
end

