-- ==== Sys2Proof/Safety.lean ====
section
/-! DEFINITION. The terms claims use: the invariant that ties the transfer in progress to SHIFT_CNT (R14, R20, R128), the states
in which the port is free, what may stop a step, and the duties the spec puts on hosts and platforms (R119, R122-R124). -/

namespace Sys2Proof.Machine

open Sys2Proof

/-- No transaction is outstanding and nothing of one is left: SHIFT_CNT is 0, and so is the data shift register (R14, R128). -/
def State.portFree (s : State) : Prop := s.outstanding = none ∧ s.shiftCnt = 0 ∧ s.dataShift = 0#32

/-- A serial WR_DR with data `d` is in progress: some of its 32 shifts remain, it has not responded, and the bit-input form's
data register holds the bits of `d` that are still to come (R14, R63, R65). -/
def State.shifting (form : SerialForm) (d : Word) (s : State) : Prop :=
  s.shiftCnt ≠ 0 ∧ s.resp = none ∧
    match form with
    | .xorShift => s.dataShift = 0#32
    | .bitInput => s.dataShift = d <<< (32 - s.shiftCnt.val)

/-- What an outstanding request may be: only a serial WR_DR is ever outstanding between two edges (R26, R125). -/
def State.outstandingOk (impl : CrcImpl) (r : Request) (s : State) : Prop :=
  match impl with
  | .parallel    => False
  | .serial form =>
    match r.decoded with
    | .illegal _       => False
    | .legal (.wrDr d) => s.shifting form d
    | .legal .rdDr     => False
    | .legal (.wrCr _) => False
    | .legal .rdCr     => False

/-- The invariant of the block. Before the first reset since power-up nothing is outstanding and nothing has responded
(R118); after it, either the port is free or a serial WR_DR is in progress (R14, R20, R128). -/
def State.Inv (impl : CrcImpl) (s : State) : Prop :=
  match s.power with
  | .unreset     => s.outstanding = none ∧ s.resp = none
  | .operational =>
    match s.outstanding with
    | none   => s.portFree
    | some r => s.outstandingOk impl r

/-- The host keeps the duty of R122 and the platform that of R118 in what it does next: no request before a reset, and a
request that is outstanding is held unchanged unless RST is asserted. -/
def eventDutiful (ev : HostEvent) (s : State) : Prop :=
  match ev with
  | .request _  => s.power = .operational
  | .access _   => s.power = .operational
  | .cycle p    =>
    p.rst = true ∨
      (p.reqValid = true → s.power = .operational) ∧ ∀ r, s.outstanding = some r → p.reqValid = true ∧ p.req = r
  | .clockStop  => True
  | .powerCycle => True

/-- One computation of one master: a master may have several (R124, U9). -/
structure ComputationId where
  master : Nat
  number : Nat
  deriving DecidableEq, Repr

/-- A transaction with the computation it belongs to. The block itself cannot tell masters or computations apart (R44). -/
structure MasterRequest where
  source : ComputationId
  req    : Request
  deriving DecidableEq, Repr

/-- The transaction feeds a word: it is a WR_DR. -/
def MasterRequest.feedsWord (t : MasterRequest) : Bool :=
  match t.req.decoded with
  | .illegal _       => false
  | .legal (.wrDr _) => true
  | .legal .rdDr     => false
  | .legal (.wrCr _) => false
  | .legal .rdCr     => false

/-- The computation that is open after a transaction, given the transactions still to come. CRC.RESET opens one (R124), and
so does a first word, since a computation right after a hardware reset may leave CRC.RESET out (R89; log entry 13). A RD_DR
closes it only if it is the result read, the one after which no word of the computation follows (R127). -/
def ownerAfter (owner : Option ComputationId) (t : MasterRequest) (later : List MasterRequest) : Option ComputationId :=
  match t.req.decoded with
  | .illegal _       => owner
  | .legal (.wrDr _) => some t.source
  | .legal .rdDr     => if later.any fun u => u.source == t.source && u.feedsWord then owner else none
  | .legal (.wrCr d) => if resetBit d then some t.source else owner
  | .legal .rdCr     => owner

/-- The computations do not overlap: while one is open, every transaction is its own, so that no transaction of another
computation, be it the same master's, stands between its CRC.RESET and its result read (R124, U9). -/
def noOverlap : Option ComputationId → List MasterRequest → Bool
  | _, []           => true
  | owner, t :: ts =>
    (match owner with
      | none   => true
      | some c => t.source == c) && noOverlap (ownerAfter owner t ts) ts

/-- The platform delivers a host's transactions as issued: none lost, merged, repeated or reordered (R38, R41, R123, U14). -/
def deliveredInOrder (issued delivered : List Request) : Bool := delivered == issued

/-- The host's duty of R119: a computation's transactions begin with a reset of ACC. -/
def startsWithReset : List Request → Bool
  | []     => false
  | r :: _ =>
    match r.decoded with
    | .illegal _       => false
    | .legal (.wrDr _) => false
    | .legal .rdDr     => false
    | .legal (.wrCr d) => resetBit d
    | .legal .rdCr     => false

/-- The boot order of R120 as events: power, one rising edge with RST = 1, then the host's transactions. -/
def bootEvents (rs : List Request) : List HostEvent :=
  .powerCycle :: .cycle resetPins :: rs.map HostEvent.request

/-- The data words written to DR since the last reset that a sequence of transactions holds, after the words `ws` (R74). -/
def wordsSinceReset : List Word → List Request → List Word
  | ws, []      => ws
  | ws, r :: rs =>
    match r.decoded with
    | .illegal _       => wordsSinceReset ws rs
    | .legal (.wrDr d) => wordsSinceReset (ws ++ [d]) rs
    | .legal .rdDr     => wordsSinceReset ws rs
    | .legal (.wrCr d) => wordsSinceReset (if resetBit d then [] else ws) rs
    | .legal .rdCr     => wordsSinceReset ws rs

end Sys2Proof.Machine
end

