-- ==== Sys2Proof/Certificates/Slice0/Obligations.lean ====
section
/-! DEFINITION. The statements for the provers, from the spec's numbered rules. The model has no memory (R28), so the frames
speak of the registers, the transfer in progress and the response ports. -/

open Sys2Proof Sys2Proof.Machine

/-! ### Encoding -/

/-- R48: the legal transactions are exactly four, each selected by the full 7-bit descriptor, with the operand and the read
value that the map gives each. -/
def Obligations.DescriptorsDecodeAsTheOpcodeMap : Prop :=
  (∀ (q : Descriptor) (d : Word) (i : Instr),
    decode q d = .legal i ↔
      (q = 0x60#7 ∧ i = .wrDr d) ∨ (q = 0x20#7 ∧ i = .rdDr) ∨ (q = 0x64#7 ∧ i = .wrCr d) ∨ (q = 0x24#7 ∧ i = .rdCr)) ∧
  (∀ s : State, (∃ t, exec .rdDr s = .next t ∧ t.resp = some (.ok s.acc)) ∧
    (∃ t, exec .rdCr s = .next t ∧ t.resp = some (.ok 0x00000000#32)) ∧
    ∀ d : Word, exec (.wrCr d) s = exec (.wrCr (d &&& 0x00000001#32)) s)

/-- R49: the other descriptors are illegal, in four classes of 32, 48, 32 and 12 values, and get the error response with no
effect on the state. SIZE, REG and BYTE are read off the number `q` here. -/
def Obligations.IllegalDescriptorsFallIntoFourClasses : Prop :=
  (∀ (q : Descriptor) (d : Word),
    (decode q d = .illegal .sizeRsvd ↔ q.toNat / 16 % 4 = 3) ∧
    (decode q d = .illegal .addr ↔ q.toNat / 16 % 4 ≠ 3 ∧ 2 ≤ q.toNat / 4 % 4) ∧
    (decode q d = .illegal .size ↔ q.toNat / 16 % 4 < 2 ∧ q.toNat / 4 % 4 < 2) ∧
    (decode q d = .illegal .align ↔ q.toNat / 16 % 4 = 2 ∧ q.toNat / 4 % 4 < 2 ∧ q.toNat % 4 ≠ 0)) ∧
  (∀ d : Word,
    ((List.range 128).countP fun n => decode (BitVec.ofNat 7 n) d == .illegal .sizeRsvd) = 32 ∧
    ((List.range 128).countP fun n => decode (BitVec.ofNat 7 n) d == .illegal .addr) = 48 ∧
    ((List.range 128).countP fun n => decode (BitVec.ofNat 7 n) d == .illegal .size) = 32 ∧
    ((List.range 128).countP fun n => decode (BitVec.ofNat 7 n) d == .illegal .align) = 12 ∧
    ((List.range 128).countP fun n => (decode (BitVec.ofNat 7 n) d).instr?.isSome) = 4) ∧
  (∀ (impl : CrcImpl) (r : Request) (c : Cause) (s : State),
    s.power = .operational → s.portFree → r.decoded = .illegal c →
      transact impl r s = .next { s with resp := some (.err c) }) ∧
  Cause.code .sizeRsvd = 1 ∧ Cause.code .addr = 2 ∧ Cause.code .size = 3 ∧ Cause.code .align = 4

/-- R100: the label is that of the first condition that holds, in the order ERR_SIZE_RSVD, ERR_ADDR, ERR_SIZE, ERR_ALIGN, and
every label gives the same response on the ports. -/
def Obligations.FirstErrorConditionGivesTheLabel : Prop :=
  (∀ r : Request,
    (r.size = 0b11#2 → r.decoded = .illegal .sizeRsvd) ∧
    (r.size ≠ 0b11#2 → 8 ≤ r.addr.toNat → r.decoded = .illegal .addr) ∧
    (r.size ≠ 0b11#2 → r.addr.toNat < 8 → r.size ≠ 0b10#2 → r.decoded = .illegal .size) ∧
    (r.size = 0b10#2 → r.addr.toNat < 8 → r.addr.toNat % 4 ≠ 0 → r.decoded = .illegal .align)) ∧
  (∀ (we : Bool) (d : Word),
    (Request.mk we 0b00#2 0xA#4 d).decoded = .illegal .addr ∧ (Request.mk we 0b01#2 0x2#4 d).decoded = .illegal .size) ∧
  (∀ c c' : Cause, (Resp.err c).ports = (Resp.err c').ports)

/-- Decode and encode agree: for every instruction with every operand, on the ports and in the byte container, whatever bytes
follow; and a legal request is the encoding of what it decodes to, a read's ignored write data apart. -/
def Obligations.EncodedInstructionsDecodeBack : Prop :=
  (∀ i : Instr, decode (encode i).1 (encode i).2 = .legal i) ∧
  (∀ i : Instr, i.request.decoded = .legal i) ∧
  (∀ (i : Instr) (rest : List Byte), decodeBytes (encodeBytes i ++ rest) = .ok (.legal i, rest)) ∧
  (∀ (r : Request) (i : Instr), r.decoded = .legal i →
    r.descriptor = (encode i).1 ∧ (r.we = true → r.wdata = (encode i).2)) ∧
  (∀ r : Request, Request.ofDescriptor r.descriptor r.wdata = r)

/-- The checks of WellFormed accept exactly the descriptors that the decoder of R52 finds legal. -/
def Obligations.WellFormedDescriptorsAreTheLegalOnes : Prop :=
  ∀ (q : Descriptor) (d : Word), Descriptor.wellFormed q = true ↔ ∃ i, decode q d = .legal i

/-- Words written out from the opcode map R48 and the decode vectors V-D1 to V-D16, in the numbering of
spec/opcode_table.json. -/
def Obligations.SpecWordsDecode : Prop :=
  decodeTableWord 8 0b1100000 = some (.wrDr 0#32) ∧
  decodeTableWord 8 0b0100000 = some .rdDr ∧
  decodeTableWord 8 0b1100100 = some (.wrCr 0#32) ∧
  decodeTableWord 8 0b0100100 = some .rdCr ∧
  decodeTableWord 40 0x1234567860 = some (.wrDr 0x12345678#32) ∧
  decodeTableWord 40 0x0000000164 = some (.wrCr 0x00000001#32) ∧
  decode 0b1000000#7 0x39#32 = .illegal .size ∧
  decode 0b1100010#7 0#32 = .illegal .align ∧
  decode 0b0101000#7 0#32 = .illegal .addr ∧
  decode 0b1111100#7 0#32 = .illegal .sizeRsvd ∧
  decode 0b1011001#7 0#32 = .illegal .addr ∧
  decode 0b1000101#7 0#32 = .illegal .size

/-! ### CRC arithmetic -/

/-- R57: the step as arithmetic on the number: double it modulo 2^32, then XOR POLY if bit 31 was set before; and its corner
cases. -/
def Obligations.StepShiftsThenFoldsThePolynomial : Prop :=
  (∀ x : Word, (crcStep x).toNat =
    if 2 ^ 31 ≤ x.toNat then (2 * x.toNat % 2 ^ 32) ^^^ 0x04C11DB7 else 2 * x.toNat % 2 ^ 32) ∧
  crcStep 0x00000000#32 = 0x00000000#32 ∧ crcStep 0x80000000#32 = 0x04C11DB7#32 ∧
  crcStep 0x7FFFFFFF#32 = 0xFFFFFFFE#32 ∧ crcStep 0xFFFFFFFF#32 = 0xFB3EE249#32

/-- R59: the word is XORed in whole first, and the 32 steps follow; the word's bit 31 is consumed first. -/
def Obligations.WordUpdateIsThirtyTwoSteps : Prop :=
  (∀ acc w : Word, crcUpdate acc w = crcStep^[32] (acc ^^^ w)) ∧
  (∀ acc w : Word, crcUpdate acc w =
    crcStep^[31] (((acc ^^^ w) <<< 1) ^^^ (if acc[31] ^^ w[31] then 0x04C11DB7#32 else 0#32)))

/-- R60 and R61: the words are consumed in buffer order, the checksum starts from INIT, the empty sequence gives INIT, no final
operation is applied, and it is the value a DR read returns. -/
def Obligations.ChecksumFoldsTheWordsFromInit : Prop :=
  (∀ (acc : Word) (ws : List Word), crcWords acc ws = ws.foldl crcUpdate acc) ∧
  (∀ ws : List Word, checksum ws = ws.foldl crcUpdate 0xFFFFFFFF#32) ∧
  checksum [] = 0xFFFFFFFF#32 ∧
  (∀ (ws : List Word) (s : State), s.acc = crcWords Config.init ws →
    ∃ t, exec .rdDr s = .next t ∧ t.resp = some (.ok (checksum ws)))

/-- R66: the step and the update are linear, and the update is the XOR network given by MASK, where MASK[j] is the set of input
bits whose unit value has bit j set in its image. -/
def Obligations.UpdateIsTheXorNetwork : Prop :=
  (∀ x y : Word, crcStep (x ^^^ y) = crcStep x ^^^ crcStep y) ∧
  (∀ a w : Word, crcUpdate a w = crcStep^[32] a ^^^ crcStep^[32] w) ∧
  (∀ (v : Word) (j : Nat), j < 32 → (crcStep^[32] v).getLsbD j = parity (v &&& crcMask.getD j 0#32)) ∧
  (∀ i j : Nat, i < 32 → j < 32 →
    (crcMask.getD j 0#32).getLsbD i = (crcStep^[32] (1#32 <<< i)).getLsbD j) ∧
  (∀ a d : Word, crcUpdate a d = crcNetwork (a ^^^ d))

/-- R67: with bit i of a value as the coefficient of x^i, the step is multiplication by x modulo G(x), and the update is
multiplication by x^32 modulo G(x). G is the generator of R58. -/
def Obligations.UpdateIsPolynomialReduction : Prop :=
  let P : Word → Polynomial (ZMod 2) := fun v =>
    ∑ i ∈ Finset.range 32, if v.getLsbD i then Polynomial.X ^ i else 0
  let G : Polynomial (ZMod 2) :=
    Polynomial.X ^ 32 + Polynomial.X ^ 26 + Polynomial.X ^ 23 + Polynomial.X ^ 22 + Polynomial.X ^ 16 +
      Polynomial.X ^ 12 + Polynomial.X ^ 11 + Polynomial.X ^ 10 + Polynomial.X ^ 8 + Polynomial.X ^ 7 +
      Polynomial.X ^ 5 + Polynomial.X ^ 4 + Polynomial.X ^ 2 + Polynomial.X + 1
  (∀ v : Word, P (crcStep v) = (P v * Polynomial.X) %ₘ G) ∧
  (∀ a w : Word, P (crcUpdate a w) = (P (a ^^^ w) * Polynomial.X ^ 32) %ₘ G)

/-- R68 (a) to (e): writing ACC clears it, zero is a fixed point, the step has the given inverse, the update is a bijection in
each argument so that changing one word always changes the result, and the two constants from INIT. -/
def Obligations.UpdateIsABijectionInEachArgument : Prop :=
  (∀ a : Word, crcUpdate a a = 0x00000000#32) ∧
  (∀ n : Nat, crcWords 0x00000000#32 (List.replicate n 0x00000000#32) = 0x00000000#32) ∧
  (∀ x : Word, crcStepInv (crcStep x) = x ∧ crcStep (crcStepInv x) = x) ∧
  (∀ a : Word, Function.Bijective fun w => crcUpdate a w) ∧
  (∀ w : Word, Function.Bijective fun a => crcUpdate a w) ∧
  (∀ (acc w w' : Word) (before after : List Word), w ≠ w' →
    crcWords acc (before ++ w :: after) ≠ crcWords acc (before ++ w' :: after)) ∧
  crcUpdate Config.init Config.init = 0x00000000#32 ∧ crcUpdate Config.init 0x00000000#32 = 0xC704DD7B#32 ∧
  crcStep^[32] Config.init = 0xC704DD7B#32

/-- R65: the alternative serial datapath takes one data bit per cycle, from bit 31 down to bit 0, into the feedback of the
shift register, gives the word update after 32 cycles, and has the timing of R63. -/
def Obligations.BitInputFormGivesTheWordUpdate : Prop :=
  let shiftIn : Word → Word → Nat → Word := fun d a k =>
    (a <<< 1) ^^^ (if a[31] ^^ d.getLsbD (31 - k) then 0x04C11DB7#32 else 0#32)
  (∀ acc d : Word, (List.range 32).foldl (shiftIn d) acc = crcUpdate acc d) ∧
  (∀ (r : Request) (d : Word) (s : State) (k : Nat),
    s.power = .operational → s.portFree → r.decoded = .legal (.wrDr d) → 1 ≤ k → k ≤ 32 →
      ∃ t, runCycles (.serial .bitInput) (List.replicate k (holdPins r)) s =
          .next (t, List.replicate (k - 1) none ++ [if k = 32 then some (.ok 0x00000000#32) else none]) ∧
        t.acc = (List.range k).foldl (shiftIn d) s.acc ∧ t.shiftCnt.val = 32 - k)

/-- R69: the checksum of a buffer of whole words is the catalogued byte-wise CRC over the stream with the four bytes of each
word reversed; that CRC's check value over "123456789"; the difference for one word. -/
def Obligations.ChecksumIsTheBytewiseCrcOfReversedWords : Prop :=
  (∀ buf : List Byte, buf.length % 4 = 0 →
    checksum (frame buf) =
      bytewiseCrc ((List.range (buf.length / 4)).flatMap fun i =>
        [buf.getD (4 * i + 3) 0#8, buf.getD (4 * i + 2) 0#8, buf.getD (4 * i + 1) 0#8, buf.getD (4 * i) 0#8])) ∧
  bytewiseCrc [0x31#8, 0x32#8, 0x33#8, 0x34#8, 0x35#8, 0x36#8, 0x37#8, 0x38#8, 0x39#8] = 0x0376E6E7#32 ∧
  (∀ b0 b1 b2 b3 : Byte,
    checksum (frame [b0, b1, b2, b3]) ≠ bytewiseCrc [b0, b1, b2, b3] ↔ ¬(b0 = b3 ∧ b1 = b2))

/-! ### The transactions -/

/-- R71: WR_DR completes in every state with ACC = crc_update(ACC, D) and the response OK(0), and changes nothing else; with
the rule's encoding, its corner cases and its example. -/
def Obligations.WrDrFeedsTheWord : Prop :=
  (∀ d : Word, decode 0x60#7 d = .legal (.wrDr d)) ∧
  (∀ (d : Word) (s : State),
    exec (.wrDr d) s = .next { s with acc := crcUpdate s.acc d, resp := some (.ok 0x00000000#32) }) ∧
  (∀ s t : State, exec (.wrDr s.acc) s = .next t → t.acc = 0x00000000#32) ∧
  (∀ s t : State, exec (.wrDr 0x00000000#32) s = .next t →
    t.acc = crcNetwork s.acc ∧ (s.acc = 0x00000000#32 → t.acc = 0x00000000#32) ∧
      (s.acc = Config.init → t.acc = 0xC704DD7B#32)) ∧
  (∀ (d : Word) (s t u : State), exec (.wrDr d) s = .next t → exec (.wrDr d) t = .next u →
    u.acc = crcUpdate (crcUpdate s.acc d) d) ∧
  (∀ (form : SerialForm) (r : Request) (d : Word) (s : State),
    s.power = .operational → s.portFree → r.decoded = .legal (.wrDr d) →
      latency (.serial form) r = 32 ∧
      ∃ t, runCycles (.serial form) (List.replicate 32 (holdPins r)) s =
          .next (t, List.replicate 31 none ++ [some (.ok 0x00000000#32)]) ∧ t.acc = crcUpdate s.acc d) ∧
  (∀ s t : State, s.acc = 0xFFFFFFFF#32 → exec (.wrDr 0x12345678#32) s = .next t → t.acc = 0xDF8A8A2B#32)

/-- R73: RD_DR completes in every state with the response OK(ACC) and changes nothing else, so that a second read returns the
same; after a hardware reset of any state, and after a software reset, it returns INIT; one issued while a serial WR_DR is
outstanding returns the updated ACC. -/
def Obligations.RdDrReturnsTheAccumulator : Prop :=
  (∀ d : Word, decode 0x20#7 d = .legal .rdDr) ∧
  (∀ s : State, exec .rdDr s = .next { s with resp := some (.ok s.acc) }) ∧
  (∀ s t u : State, exec .rdDr s = .next t → exec .rdDr t = .next u → u.resp = t.resp) ∧
  (∀ s t : State, s = State.reset ∨ (∃ s', s = hardReset s') →
    exec .rdDr s = .next t → t.resp = some (.ok 0xFFFFFFFF#32)) ∧
  (∀ (d : Word) (s t u v : State), d.toNat % 2 = 1 → exec (.wrCr d) s = .next t →
    (exec .rdDr t = .next u → u.resp = some (.ok 0xFFFFFFFF#32)) ∧
    (exec (.wrDr 0x12345678#32) t = .next u → exec .rdDr u = .next v → v.resp = some (.ok 0xDF8A8A2B#32))) ∧
  (∀ (form : SerialForm) (r r' : Request) (d : Word) (s u : State) (k : Nat) (out : List (Option Resp)),
    s.power = .operational → s.portFree → r.decoded = .legal (.wrDr d) → r'.decoded = .legal .rdDr → 1 ≤ k → k < 32 →
    runCycles (.serial form) (List.replicate k (holdPins r)) s = .next (u, out) →
      ∃ v, transact (.serial form) r' u = .next v ∧ v.resp = some (.ok (crcUpdate s.acc d)))

/-- R75 and R76: WR_CR completes in every state; an odd D loads INIT, an even D changes nothing, bits 31:1 are ignored without
an error, a second reset changes nothing more, and CR keeps no value. -/
def Obligations.WrCrActsOnBitZeroOnly : Prop :=
  (∀ d : Word, decode 0x64#7 d = .legal (.wrCr d)) ∧
  (∀ (d : Word) (s : State), d.toNat % 2 = 1 →
    exec (.wrCr d) s = .next { s with acc := 0xFFFFFFFF#32, resp := some (.ok 0x00000000#32) }) ∧
  (∀ (d : Word) (s : State), d.toNat % 2 = 0 →
    exec (.wrCr d) s = .next { s with resp := some (.ok 0x00000000#32) }) ∧
  (∀ (d : Word) (s t u : State), d.toNat % 2 = 1 → exec (.wrCr d) s = .next t → exec (.wrCr d) t = .next u → u = t) ∧
  (∀ (d : Word) (s t u : State), exec (.wrCr d) s = .next t → exec .rdCr t = .next u →
    u.resp = some (.ok 0x00000000#32)) ∧
  (∀ s : State, s.acc = 0xDF8A8A2B#32 →
    (∀ t, exec (.wrCr 0x00000000#32) s = .next t → t.acc = s.acc) ∧
    (∀ t, exec (.wrCr 0xFFFFFFFE#32) s = .next t → t.acc = s.acc) ∧
    (∀ t, exec (.wrCr 0xFFFFFFFF#32) s = .next t → t.acc = 0xFFFFFFFF#32) ∧
    (∀ t, exec (.wrCr 0x00000001#32) s = .next t → t.acc = 0xFFFFFFFF#32))

/-- R77: RD_CR completes in every state with the response OK(0) and changes nothing else, also right after a write of
0xFFFFFFFF. -/
def Obligations.RdCrReturnsZero : Prop :=
  (∀ d : Word, decode 0x24#7 d = .legal .rdCr) ∧
  (∀ s : State, exec .rdCr s = .next { s with resp := some (.ok 0x00000000#32) }) ∧
  (∀ s t u : State, exec (.wrCr 0xFFFFFFFF#32) s = .next t → exec .rdCr t = .next u →
    u.resp = some (.ok 0x00000000#32) ∧ u.acc = t.acc)

/-- The frame of the four transactions: none touches SHIFT_CNT, the data shift register, the transfer in progress, the power
state or what is queued; reads leave ACC, and so does a CR write with RESET = 0; CR always reads 0. -/
def Obligations.TransactionsLeaveTheRestUnchanged : Prop :=
  ∀ (i : Instr) (s t : State), exec i s = .next t →
    t.shiftCnt = s.shiftCnt ∧ t.dataShift = s.dataShift ∧ t.outstanding = s.outstanding ∧ t.power = s.power ∧
    t.pending = s.pending ∧ t.freeIdx = s.freeIdx ∧
    (i = .rdDr ∨ i = .rdCr ∨ (∃ d, i = .wrCr d ∧ d.toNat % 2 = 0) → t.acc = s.acc) ∧
    readWindow 0b01#2 t = some 0x00000000#32 ∧ readWindow 0b10#2 t = none ∧ readWindow 0b11#2 t = none

/-- R29: the register map. Word accesses to 0x0 and 0x4 have the registers' effects, and 0x8 and 0xC answer the error response
with no effect. -/
def Obligations.RegisterMapOfTheWindow : Prop :=
  ∀ (impl : CrcImpl) (d : Word) (s : State), s.power = .operational → s.portFree →
    transact impl ⟨false, 0b10#2, 0x0#4, d⟩ s = .next { s with resp := some (.ok s.acc) } ∧
    transact impl ⟨true, 0b10#2, 0x0#4, d⟩ s =
      .next { s with acc := crcUpdate s.acc d, resp := some (.ok 0x00000000#32) } ∧
    transact impl ⟨false, 0b10#2, 0x4#4, d⟩ s = .next { s with resp := some (.ok 0x00000000#32) } ∧
    transact impl ⟨true, 0b10#2, 0x4#4, d⟩ s =
      .next { s with acc := if d.toNat % 2 = 1 then 0xFFFFFFFF#32 else s.acc, resp := some (.ok 0x00000000#32) } ∧
    (∀ (we : Bool) (off : BitVec 4), off = 0x8#4 ∨ off = 0xC#4 →
      transact impl ⟨we, 0b10#2, off, d⟩ s = .next { s with resp := some (.err .addr) }) ∧
    readWindow 0b00#2 State.reset = some 0xFFFFFFFF#32 ∧ readWindow 0b01#2 State.reset = some 0x00000000#32

/-- R32 and R33: a byte, halfword or reserved-size access to any offset, and a misaligned word access, get the error response
with no effect, and every legal access is an aligned word. -/
def Obligations.NarrowAndMisalignedAccessesAreErrors : Prop :=
  (∀ (impl : CrcImpl) (r : Request) (s : State), s.power = .operational → s.portFree →
    r.size ≠ 0b10#2 ∨ r.addr.toNat % 4 ≠ 0 →
      ∃ c, transact impl r s = .next { s with resp := some (.err c) }) ∧
  (∀ (r : Request) (i : Instr), r.decoded = .legal i → r.size = 0b10#2 ∧ r.addr.toNat % 4 = 0)

/-- R80 and R98: an illegal request completes in its first cycle with RSP_READY = 1, RSP_ERR = 1 and RSP_RDATA = 0, changes no
register, and leaves nothing that a later transaction could notice. -/
def Obligations.IllegalRequestsChangeNothing : Prop :=
  ∀ (impl : CrcImpl) (r : Request) (c : Cause) (s : State),
    s.power = .operational → s.portFree → r.decoded = .illegal c →
      transact impl r s = .next { s with resp := some (.err c) } ∧
      tick impl (holdPins r) s = .next { s with resp := some (.err c) } ∧
      State.ports { s with resp := some (.err c) } = ⟨true, true, 0x00000000#32⟩ ∧
      ∀ r' : Request, transact impl r' { s with resp := some (.err c) } = transact impl r' s

/-- R101: no legal transaction raises an error, for any data and any ACC, and an illegal request raises exactly one error
response. -/
def Obligations.LegalTransactionsNeverFail : Prop :=
  (∀ (i : Instr) (s : State), ∃ t v, exec i s = .next t ∧ t.resp = some (.ok v)) ∧
  (∀ (impl : CrcImpl) (r : Request) (i : Instr) (s : State),
    s.power = .operational → s.portFree → r.decoded = .legal i →
      ∃ t v, transact impl r s = .next t ∧ t.resp = some (.ok v)) ∧
  (∀ (impl : CrcImpl) (r : Request) (c : Cause) (s : State),
    s.power = .operational → s.portFree → r.decoded = .illegal c →
      ∃ t, runCycles impl (transactionPins impl r) s = .next (t, [some (.err c)]))

/-- R35: RSP_RDATA is 0 on every write and on every error response, REQ_WDATA is ignored on reads, and REQ_WDATA[31:1] is
ignored on CR writes. -/
def Obligations.ValuesThatCarryNoMeaning : Prop :=
  ∀ (impl : CrcImpl) (r : Request) (s : State), s.power = .operational → s.portFree →
    (r.we = true → ∃ t, transact impl r s = .next t ∧ t.ports.rdata = 0x00000000#32) ∧
    (∀ c, r.decoded = .illegal c → ∃ t, transact impl r s = .next t ∧ t.ports.rdata = 0x00000000#32) ∧
    (r.we = false → ∀ d, transact impl { r with wdata := d } s = transact impl r s) ∧
    (∀ d, r.decoded = .legal (.wrCr d) → transact impl { r with wdata := d &&& 1#32 } s = transact impl r s)

/-- R34: reads have no side effect, a DR write is not idempotent, a CR write with RESET = 1 is, and one with RESET = 0 has no
effect. -/
def Obligations.SideEffectsAndIdempotency : Prop :=
  (∀ s t : State, exec .rdDr s = .next t ∨ exec .rdCr s = .next t → ∀ i, exec i t = exec i s) ∧
  (∀ (d : Word) (s t u : State), exec (.wrDr d) s = .next t → exec (.wrDr d) t = .next u →
    t.acc = crcUpdate s.acc d ∧ u.acc = crcUpdate t.acc d) ∧
  (∃ (d : Word) (s t u : State), exec (.wrDr d) s = .next t ∧ exec (.wrDr d) t = .next u ∧ u.acc ≠ t.acc) ∧
  (∀ (d : Word) (s t : State), d.toNat % 2 = 1 → exec (.wrCr d) s = .next t →
    t.acc = Config.init ∧ exec (.wrCr d) t = .next t) ∧
  (∀ (d : Word) (s t : State), d.toNat % 2 = 0 → exec (.wrCr d) s = .next t → ∀ i, exec i t = exec i s)

/-- In every clock cycle of a reset block, ACC changes only where RST is asserted, a WR_DR is served, or a WR_CR with RESET = 1
is served, which makes it INIT. -/
def Obligations.AccumulatorChangesInThreeWays : Prop :=
  ∀ (impl : CrcImpl) (p : Pins) (s t : State), s.power = .operational → tick impl p s = .next t → t.acc ≠ s.acc →
    (p.rst = true ∧ t.acc = Config.init) ∨
    (p.rst = false ∧ p.reqValid = true ∧ ∃ d, p.req.decoded = .legal (.wrDr d)) ∨
    (p.rst = false ∧ p.reqValid = true ∧ t.acc = Config.init ∧
      ∃ d, p.req.decoded = .legal (.wrCr d) ∧ d.toNat % 2 = 1)

/-! ### The step -/

/-- A step runs the decoded instruction: when the next event is a transaction whose request decodes to `i`, the step is exec of
`i`, after the write that may still be outstanding, and an illegal request gets the error response there. Every other event is
what the cycle-level model, the platform's decode or the power rules say, and with nothing queued the step is one clock cycle,
idle or holding the outstanding request (that last choice and the queue are the model's, log entries 1 and 17). -/
def Obligations.StepRunsTheDecodedInstruction : Prop :=
  (∀ (s : State) (r : Request) (rest : List HostEvent),
    s.pending = .request r :: rest →
      (s.power = .operational →
        (∀ i : Instr, r.decoded = .legal i →
          step s = exec i (settle Config.crcImpl { s with pending := rest }) ∧
          (s.outstanding = none → step s = exec i { s with pending := rest })) ∧
        (∀ c : Cause, r.decoded = .illegal c →
          step s = .next (busError c (settle Config.crcImpl { s with pending := rest })) ∧
          (s.outstanding = none → step s = .next { s with pending := rest, resp := some (.err c) }))) ∧
      (s.power = .unreset → step s = .refused .noResetSincePowerUp)) ∧
  (∀ (s : State) (pins : Pins) (rest : List HostEvent), s.pending = .cycle pins :: rest →
    step s = tick Config.crcImpl pins { s with pending := rest }) ∧
  (∀ (s : State) (a : BusAccess) (rest : List HostEvent), s.pending = .access a :: rest →
    (∀ r, a.request? Config.params.base = some r → step s = transact Config.crcImpl r { s with pending := rest }) ∧
    (a.request? Config.params.base = none → s.power = .operational →
      step s = .next (idle (settle Config.crcImpl { s with pending := rest }))) ∧
    (a.request? Config.params.base = none → s.power = .unreset → step s = .next (unspecified { s with pending := rest }))) ∧
  (∀ (s : State) (rest : List HostEvent), s.pending = .clockStop :: rest →
    step s = .next { s with pending := rest, resp := none }) ∧
  (∀ (s : State) (rest : List HostEvent), s.pending = .powerCycle :: rest →
    step s = .next (unspecified { s with pending := rest })) ∧
  (∀ s : State, s.pending = [] →
    (s.outstanding = none → step s = tick Config.crcImpl idlePins s) ∧
    ∀ r, s.outstanding = some r → step s = tick Config.crcImpl (holdPins r) s) ∧
  (∀ (p : Params) (s : State) (ev : HostEvent) (rest : List HostEvent), s.pending = ev :: rest →
    stepWith p s = applyEvent p ev { s with pending := rest })

/-- A word in the numbering of spec/opcode_table.json that decodes to `i`, presented next, is run by the next step. -/
def Obligations.PresentedWordRunsAsDecoded : Prop :=
  ∀ (s : State) (nbits w : Nat) (i : Instr),
    s.power = .operational → s.outstanding = none → decodeTableWord nbits w = some i →
      step (s.withFetchWord nbits w) = exec i s

/-- R81: a run over any sequence of transactions answers the fold of R81's function `exec` over it, for either CRC_IMPL: the
same responses in order and the same final ACC. It never stops. -/
def Obligations.RunsFollowTheTransactionModel : Prop :=
  ∀ (impl : CrcImpl) (rs : List Request) (s : State), s.power = .operational → s.portFree →
    ∃ t, runRequests impl rs s =
        .next (t, (transactionRun s.acc (rs.map fun r => (r.descriptor, r.wdata))).2) ∧
      t.acc = (transactionRun s.acc (rs.map fun r => (r.descriptor, r.wdata))).1 ∧
      t.power = .operational ∧ t.portFree

/-- R78: idle cycles change nothing, whatever stands on the other request ports; the response ports are quiet; any number of
them between transactions changes no result. -/
def Obligations.IdleCyclesChangeNothing : Prop :=
  ∀ (impl : CrcImpl) (r : Request) (s : State), s.power = .operational → s.portFree →
    tick impl ⟨false, false, r⟩ s = .next { s with resp := none } ∧
    State.ports { s with resp := none } = ⟨false, false, 0x00000000#32⟩ ∧
    ∀ n : Nat, ∃ t, runCycles impl (List.replicate n ⟨false, false, r⟩) s = .next (t, List.replicate n none) ∧
      t.acc = s.acc ∧ t.shiftCnt = 0 ∧ ∀ r' : Request, transact impl r' t = transact impl r' s

/-- R28 and R43: a bus access inside the window at BASE, a multiple of 16, reaches the block with REQ_ADDR its offset from BASE,
and one outside the window is seen as an idle cycle. That last clause is the model's choice where a platform could map the
window a second time (log entry 11: no alias). -/
def Obligations.BusAccessesReachTheBlockInsideItsWindow : Prop :=
  ∀ (p : Params) (a : BusAccess) (s : State), p.base % 16 = 0 ∧
    (∀ k : Nat, k < 16 → a.addr = p.base + k →
      applyEvent p (.access a) s = transact p.crcImpl ⟨a.we, a.size, BitVec.ofNat 4 k, a.wdata⟩ s) ∧
    (a.addr < p.base ∨ p.base + 16 ≤ a.addr → s.power = .operational → s.portFree →
      applyEvent p (.access a) s = .next { s with resp := none })

/-! ### Reset, power, and what the model refuses -/

/-- R113: a rising edge with RST = 1 makes ACC = INIT and SHIFT_CNT = 0 whatever else is on the pins, with quiet response ports;
one edge is enough and more change nothing; the next cycle is an ordinary one. In the first RST = 1 cycle after power-up the
quiet ports are the model's choice between R113 and R118 (log entry 25). -/
def Obligations.HardwareResetSetsTheResetState : Prop :=
  ∀ (impl : CrcImpl) (p : Pins) (s : State), p.rst = true →
    ∃ t, tick impl p s = .next t ∧ t.acc = 0xFFFFFFFF#32 ∧ t.shiftCnt = 0 ∧ t.outstanding = none ∧
      t.ports = ⟨false, false, 0x00000000#32⟩ ∧ t.power = .operational ∧ t.pending = s.pending ∧
      (∀ n : Nat, runCycles impl (List.replicate (n + 1) p) s = .next (t, List.replicate (n + 1) none)) ∧
      (∀ r : Request, ∃ u, tick impl (holdPins r) t = .next u)

/-- R21: the reset values of every state element and readable field, in the reset state, after a hardware reset of any state,
and, for those that a CR.RESET write sets, after one. -/
def Obligations.ResetValues : Prop :=
  State.reset.acc = 0xFFFFFFFF#32 ∧ State.reset.shiftCnt = 0 ∧ readCR State.reset = 0x00000000#32 ∧
  readDR State.reset = 0xFFFFFFFF#32 ∧ ∀ s : State, (hardReset s).acc = 0xFFFFFFFF#32 ∧ (hardReset s).shiftCnt = 0 ∧
    readDR (hardReset s) = 0xFFFFFFFF#32 ∧ readCR (hardReset s) = 0x00000000#32 ∧
    (∀ d : Word, d.toNat % 2 = 1 → (writeCR d s).acc = 0xFFFFFFFF#32 ∧ readDR (writeCR d s) = 0xFFFFFFFF#32 ∧
      readCR (writeCR d s) = 0x00000000#32)

/-- R114 and R105: a reset in any cycle of a transaction, its completing cycle among them, abandons it: it gets no response, and
the state is the reset state, with no partial shift in ACC. -/
def Obligations.ResetAbandonsTheTransaction : Prop :=
  ∀ (impl : CrcImpl) (r : Request) (p : Pins) (s : State) (k : Nat),
    s.power = .operational → s.portFree → p.rst = true → k < latency impl r →
      runCycles impl (List.replicate k (holdPins r) ++ [p]) s = .next (hardReset s, List.replicate (k + 1) none) ∧
      (hardReset s).acc = 0xFFFFFFFF#32 ∧ (hardReset s).shiftCnt = 0

/-- R115 and R116: a software reset has the same effect as a hardware reset on ACC and SHIFT_CNT, and an OK response; after
either, RD_DR returns 0xFFFFFFFF and RD_CR returns 0. -/
def Obligations.SoftwareResetMatchesHardwareReset : Prop :=
  ∀ (d : Word) (s : State), d.toNat % 2 = 1 → s.portFree →
    (∃ t, exec (.wrCr d) s = .next t ∧ t.acc = (hardReset s).acc ∧ t.shiftCnt = (hardReset s).shiftCnt ∧
      t.resp = some (.ok 0x00000000#32)) ∧
    ∀ t : State, exec (.wrCr d) s = .next t ∨ t = hardReset s →
      (∃ u, exec .rdDr t = .next u ∧ u.resp = some (.ok 0xFFFFFFFF#32)) ∧
      (∃ u, exec .rdCr t = .next u ∧ u.resp = some (.ok 0x00000000#32))

/-- R118: before the first hardware reset since power-up a request is refused, however it is presented, and one edge with
RST = 1 ends that. -/
def Obligations.RequestsBeforeTheFirstResetAreRefused : Prop :=
  ∀ (impl : CrcImpl) (r : Request) (s : State), s.power = .unreset →
    transact impl r s = .refused .noResetSincePowerUp ∧
    tick impl (holdPins r) s = .refused .noResetSincePowerUp ∧
    (∃ t, tick impl idlePins s = .next t ∧ t.power = .unreset) ∧
    (∃ t, tick impl resetPins s = .next t ∧ t.power = .operational ∧ ∃ u, transact impl r t = .next u)

/-- R122: a request that is changed or withdrawn while it is outstanding, without a reset, is refused, and one that is held
goes on. -/
def Obligations.ChangedRequestsAreRefused : Prop :=
  ∀ (impl : CrcImpl) (p : Pins) (r : Request) (s : State),
    s.power = .operational → s.outstanding = some r → p.rst = false →
      (p.reqValid = false ∨ p.req ≠ r → tick impl p s = .refused .requestChanged) ∧
      (p.reqValid = true → p.req = r → ∃ t, tick impl p s = .next t)

/-- R112: while CLK is stopped every register keeps its value, and a serial write in progress is suspended; after a loss of power
no transaction is served before a hardware reset. -/
def Obligations.ClockStopKeepsStateAndPowerLossNeedsAReset : Prop :=
  ∀ (p : Params) (s : State),
    (∃ t, applyEvent p .clockStop s = .next t ∧ t.acc = s.acc ∧ t.shiftCnt = s.shiftCnt ∧ t.dataShift = s.dataShift ∧
      t.outstanding = s.outstanding ∧ t.power = s.power ∧ ∀ pins, tick p.crcImpl pins t = tick p.crcImpl pins s) ∧
    (∃ t, applyEvent p .powerCycle s = .next t ∧
      (∀ r, applyEvent p (.request r) t = .refused .noResetSincePowerUp) ∧
      ∃ u, applyEvent p (.cycle resetPins) t = .next u ∧ u.power = .operational ∧ u.acc = 0xFFFFFFFF#32)

/-! ### The block cycle by cycle -/

/-- R63: a serial WR_DR takes one step per cycle in ACC itself; after k cycles SHIFT_CNT is 32 - k, RSP_READY is 1 in the 32nd
cycle only, and until then the write stays outstanding. Every other transaction takes one cycle. -/
def Obligations.SerialWriteShiftsOncePerCycle : Prop :=
  (∀ (r : Request) (d : Word) (s : State) (k : Nat),
    s.power = .operational → s.portFree → r.decoded = .legal (.wrDr d) → 1 ≤ k → k ≤ 32 →
      ∃ t, runCycles (.serial .xorShift) (List.replicate k (holdPins r)) s =
          .next (t, List.replicate (k - 1) none ++ [if k = 32 then some (.ok 0x00000000#32) else none]) ∧
        t.acc = crcStep^[k] (s.acc ^^^ d) ∧ t.shiftCnt.val = 32 - k ∧
        t.outstanding = (if k = 32 then none else some r)) ∧
  (∀ (form : SerialForm) (r : Request), (∀ d, r.decoded ≠ .legal (.wrDr d)) → latency (.serial form) r = 1)

/-- R64: under every CRC_IMPL, the cycles of one transaction end in exactly the state and the response of the transaction-level
meaning, and no earlier cycle responds. The bit-input form of R65 is among the datapaths. -/
def Obligations.DatapathsAgree : Prop :=
  ∀ (impl : CrcImpl) (r : Request) (s : State), s.power = .operational → s.portFree →
    ∃ t v, transact impl r s = .next t ∧ t.resp = some v ∧ t.power = .operational ∧ t.portFree ∧
      runCycles impl (transactionPins impl r) s =
        .next (t, List.replicate (latency impl r - 1) none ++ [some v]) ∧
      ∀ d, r.decoded = .legal (.wrDr d) → t.acc = crcUpdate s.acc d

/-- R126 with R64: every sequence of transactions, run cycle by cycle with any number of idle cycles before each, gives the
responses and the final ACC of R81's transaction model, under every CRC_IMPL. -/
def Obligations.CycleRunsFollowTheTransactionModel : Prop :=
  ∀ (impl : CrcImpl) (gaps : List (Nat × Request)) (s : State), s.power = .operational → s.portFree →
    ∃ t out, runCycles impl (gaps.flatMap fun g => List.replicate g.1 idlePins ++ transactionPins impl g.2) s =
        .next (t, out) ∧
      out.filterMap id = (transactionRun s.acc (gaps.map fun g => (g.2.descriptor, g.2.wdata))).2 ∧
      t.acc = (transactionRun s.acc (gaps.map fun g => (g.2.descriptor, g.2.wdata))).1 ∧ t.portFree

/-- R125: the latency table, that a transaction on a free port responds in its last cycle by that table and in none before,
that a hardware reset takes one edge, and the n + 2 or 32n + 2 transaction cycles of a computation over n words. -/
def Obligations.Latencies : Prop :=
  (∀ (impl : CrcImpl) (r : Request) (s : State), s.power = .operational → s.portFree →
    ∃ t v, runCycles impl (List.replicate (latency impl r) (holdPins r)) s =
      .next (t, List.replicate (latency impl r - 1) none ++ [some v])) ∧
  (∀ (impl : CrcImpl) (p : Pins) (s : State), p.rst = true → tick impl p s = .next (hardReset s)) ∧
  (∀ (impl : CrcImpl) (d : Word),
    latency impl (Instr.wrDr d).request = (if impl = .parallel then 1 else 32) ∧
    latency impl Instr.rdDr.request = 1 ∧ latency impl (Instr.wrCr d).request = 1 ∧
    latency impl Instr.rdCr.request = 1) ∧
  (∀ (impl : CrcImpl) (r : Request) (c : Cause), r.decoded = .illegal c → latency impl r = 1) ∧
  (∀ (impl : CrcImpl) (ws : List Word),
    ((computation ws).flatMap (transactionPins impl)).length =
      (if impl = .parallel then ws.length + 2 else 32 * ws.length + 2))

/-- R27 and R73: a transaction issued while a serial WR_DR is outstanding begins after that write has completed, so that it has
the result it has right after the completed write; a RD_DR returns the updated ACC. -/
def Obligations.TransactionsWaitForASerialWrite : Prop :=
  ∀ (form : SerialForm) (r r' : Request) (d : Word) (s t u : State) (k : Nat) (out : List (Option Resp)),
    s.power = .operational → s.portFree → r.decoded = .legal (.wrDr d) → 1 ≤ k → k < 32 →
    runCycles (.serial form) (List.replicate k (holdPins r)) s = .next (u, out) →
    transact (.serial form) r s = .next t →
      transact (.serial form) r' u = transact (.serial form) r' t ∧
      (r'.decoded = .legal .rdDr →
        ∃ v, transact (.serial form) r' u = .next v ∧ v.resp = some (.ok (crcUpdate s.acc d)))

/-! ### Invariant -/

/-- The reset state meets the invariant, under every CRC_IMPL, and so does the state after any hardware reset or loss of
power. -/
def Obligations.ResetStateMeetsTheInvariant : Prop :=
  ∀ impl : CrcImpl, State.reset.Inv impl ∧ ∀ s : State, (hardReset s).Inv impl ∧ (unspecified s).Inv impl

/-- Every step keeps the invariant: between transactions SHIFT_CNT and the data shift register are 0, and only a serial WR_DR
is ever outstanding, with shifts left to do. -/
def Obligations.EveryStepKeepsTheInvariant : Prop :=
  (∀ (p : Params) (s t : State), s.Inv p.crcImpl → stepWith p s = .next t → t.Inv p.crcImpl) ∧
  (∀ s t : State, s.Inv Config.crcImpl → step s = .next t → t.Inv Config.crcImpl)

/-- R97: the block never stops because of an error: from every state of the invariant, every event in which the host keeps its
duties is answered by a next state, and so is a step with nothing queued. -/
def Obligations.DutifulStepsNeverStop : Prop :=
  (∀ (p : Params) (ev : HostEvent) (s : State), s.Inv p.crcImpl → eventDutiful ev s →
    ∃ t, applyEvent p ev s = .next t) ∧
  (∀ (p : Params) (s : State), s.Inv p.crcImpl → s.pending = [] → ∃ t, stepWith p s = .next t)

/-- R128: between transactions SHIFT_CNT is 0, and what the block does depends only on ACC: two such states with the same ACC give the
same response in every cycle, for any pins to come, and the same final ACC. -/
def Obligations.FutureDependsOnTheAccumulatorOnly : Prop :=
  (∀ (impl : CrcImpl) (s : State), s.Inv impl → s.power = .operational → s.outstanding = none → s.shiftCnt = 0) ∧
  ∀ (impl : CrcImpl) (ps : List Pins) (s s' t : State) (out : List (Option Resp)),
    s.Inv impl → s'.Inv impl → s.power = .operational → s'.power = .operational →
    s.outstanding = none → s'.outstanding = none → s.acc = s'.acc →
    runCycles impl ps s = .next (t, out) →
      ∃ t', runCycles impl ps s' = .next (t', out) ∧ t'.acc = t.acc ∧ t'.shiftCnt = t.shiftCnt

/-! ### Hosts and platforms -/

/-- R84 and R85: the byte at the lowest offset of a group becomes bits 7:0 of its word, which is the byte reversal of the group
read most significant byte first; its first consumed bit is bit 7 of the last byte. -/
def Obligations.FramedWordsAreLittleEndian : Prop :=
  (∀ (buf : List Byte) (i k : Nat), k < 4 → byteLane (bufWord buf i) k = buf.getD (4 * i + k) 0#8) ∧
  (∀ (buf : List Byte) (i : Nat), bufWord buf i = bswap32 (bufWordBE buf i)) ∧
  (∀ (buf : List Byte) (i : Nat),
    (bufWord buf i)[31] = (buf.getD (4 * i + 3) 0#8)[7] ∧ (bufWord buf i)[0] = (buf.getD (4 * i) 0#8)[0]) ∧
  (∀ buf : List Byte, (frame buf).length = buf.length / 4 ∧
    ∀ i, i < buf.length / 4 → (frame buf)[i]? = some (bufWord buf i)) ∧
  frame [0x78#8, 0x56#8, 0x34#8, 0x12#8] = [0x12345678#32]

/-- R86: a host of either byte order stores the same words, the big-endian one because it swaps each loaded word; without the
swap it would store the byte-reversed word. -/
def Obligations.HostsOfEitherByteOrderFeedTheSameWords : Prop :=
  (∀ (order : HostOrder) (buf : List Byte), hostFrame order buf = frame buf) ∧
  (∀ b0 b1 b2 b3 : Byte, hostLoad .big b0 b1 b2 b3 = bswap32 (hostLoad .little b0 b1 b2 b3)) ∧
  (∀ v : Word, bswap32 (bswap32 v) = v)

/-- R87: zero padding appends 4 - r zero bytes, so that the last word is the zero extension of the r bytes left over, and the
other words are those of the whole groups; buffers that differ only by zero bytes inside the last word have the same
checksum. -/
def Obligations.ZeroPaddingExtendsTheLastWord : Prop :=
  (∀ buf : List Byte, buf.length % 4 ≠ 0 →
    zeroPadded buf = buf ++ List.replicate (4 - buf.length % 4) 0#8 ∧
    frame (zeroPadded buf) = frame buf ++
      [(List.range (buf.length % 4)).foldl
        (fun w j => w ||| ((buf.getD (4 * (buf.length / 4) + j) 0#8).setWidth 32 <<< (8 * j))) 0#32] ∧
    ∀ k : Nat, k ≤ 4 - buf.length % 4 →
      checksum (frame (zeroPadded (buf ++ List.replicate k 0#8))) = checksum (frame (zeroPadded buf))) ∧
  (∀ buf : List Byte, buf.length % 4 = 0 → zeroPadded buf = buf) ∧
  checksum (frame (zeroPadded [0x01#8])) = 0xC3C5C0CC#32 ∧
  checksum (frame (zeroPadded [0x01#8, 0x00#8, 0x00#8, 0x00#8])) = 0xC3C5C0CC#32

/-- R88: under REJECT a buffer whose length is no multiple of 4 fails with InvalidInput and issues no transaction, and the two
policies agree on every other buffer. -/
def Obligations.RejectPolicyFailsOnPartialWords : Prop :=
  (∀ (impl : CrcImpl) (buf : List Byte) (s : State), buf.length % 4 ≠ 0 →
    computeRequests .reject buf = .error .invalidInput ∧
    compute impl .reject buf s = .next (.error .invalidInput, s)) ∧
  (∀ (impl : CrcImpl) (buf : List Byte) (s : State), buf.length % 4 = 0 →
    computeRequests .reject buf = computeRequests .zeroPad buf ∧
    compute impl .reject buf s = compute impl .zeroPad buf s)

/-- R89: `compute` fails under REJECT on a partial word, and otherwise issues the reset, one write per word of the padded
buffer and the read, all answered OK; its result is the checksum of those words, whatever ACC held before and for every
CRC_IMPL, and ACC then holds it. The reset may be left out where ACC is INIT already. -/
def Obligations.ComputeReturnsTheChecksum : Prop :=
  (∀ (impl : CrcImpl) (buf : List Byte) (s : State), buf.length % 4 ≠ 0 →
    compute impl .reject buf s = .next (.error .invalidInput, s)) ∧
  ∀ (impl : CrcImpl) (policy : PadPolicy) (buf : List Byte) (s : State),
    s.power = .operational → s.portFree → policy = .zeroPad ∨ buf.length % 4 = 0 →
      let ws := frame (buf ++ List.replicate ((4 - buf.length % 4) % 4) 0#8)
      let feeds : List Request := ws.map fun w => ⟨true, 0b10#2, 0x0#4, w⟩
      let result : Request := ⟨false, 0b10#2, 0x0#4, 0x00000000#32⟩
      let rs := ⟨true, 0b10#2, 0x4#4, 0x00000001#32⟩ :: (feeds ++ [result])
      computeRequests policy buf = .ok rs ∧
      (∃ t out, runRequests impl rs s = .next (t, out) ∧ ∀ v ∈ out, v.isErr = false) ∧
      (∃ t, compute impl policy buf s = .next (.ok (ws.foldl crcUpdate 0xFFFFFFFF#32), t) ∧
        t.acc = ws.foldl crcUpdate 0xFFFFFFFF#32 ∧ t.power = .operational ∧ t.portFree) ∧
      (s.acc = Config.init → ∃ t out, runRequests impl (feeds ++ [result]) s = .next (t, out) ∧
        out.getLast? = some (.ok (ws.foldl crcUpdate 0xFFFFFFFF#32)))

/-- R90: the empty buffer issues the reset and the read only and gives 0xFFFFFFFF, under both policies. -/
def Obligations.EmptyBufferGivesInit : Prop :=
  ∀ (impl : CrcImpl) (policy : PadPolicy) (s : State), s.power = .operational → s.portFree →
    computeRequests policy [] = .ok [crcReset, crcResult] ∧ zeroPadded [] = [] ∧
    ∃ t, compute impl policy [] s = .next (.ok 0xFFFFFFFF#32, t)

/-- R93: reversing the four bytes of one word of a buffer changes the result of `compute` exactly when the word is not
palindromic. -/
def Obligations.ReversingAWordChangesTheChecksum : Prop :=
  ∀ (impl impl' : CrcImpl) (policy : PadPolicy) (before after : List Byte) (b0 b1 b2 b3 : Byte) (s s' t t' : State) (v v' : Word),
    before.length % 4 = 0 → s.power = .operational → s.portFree → s'.power = .operational → s'.portFree →
    compute impl policy (before ++ [b0, b1, b2, b3] ++ after) s = .next (.ok v, t) →
    compute impl' policy (before ++ [b3, b2, b1, b0] ++ after) s' = .next (.ok v', t') →
      (v' ≠ v ↔ ¬(b0 = b3 ∧ b1 = b2))

/-- R95: a checksum renders as 8 digits from 0-9 and A-F, most significant first, that spell its value. -/
def Obligations.HexRenderingSpellsTheValue : Prop :=
  (∀ w : Word, (hexRender w).length = 8 ∧
    (∀ c ∈ hexRender w, ('0' ≤ c ∧ c ≤ '9') ∨ ('A' ≤ c ∧ c ≤ 'F')) ∧
    readDigits 16 0 (hexRender w) = some w.toNat) ∧
  hexRender 0x0376E6E7#32 = ['0', '3', '7', '6', 'E', '6', 'E', '7'] ∧
  hexRender 0xFFFFFFFF#32 = ['F', 'F', 'F', 'F', 'F', 'F', 'F', 'F'] ∧
  ∀ w : Word, markerName w = hexRender w ++ ['.', 't', 'x', 't']

/-- R96: after `compute` has returned c, writing c as one more word leaves ACC = 0. -/
def Obligations.ResidueIsZero : Prop :=
  ∀ (impl : CrcImpl) (policy : PadPolicy) (buf : List Byte) (c : Word) (s t : State),
    s.power = .operational → s.portFree → compute impl policy buf s = .next (.ok c, t) →
      ∃ u, transact impl (crcFeed c) t = .next u ∧ u.acc = 0x00000000#32

/-- R74: a DR read returns the checksum of the words written to DR since the most recent reset, in order. -/
def Obligations.ReadReturnsTheChecksumSinceTheLastReset : Prop :=
  ∀ (impl : CrcImpl) (rs : List Request) (s : State),
    s.power = .operational → s.portFree → s.acc = Config.init →
      ∃ t out, runRequests impl (rs ++ [crcResult]) s = .next (t, out) ∧
        out.getLast? = some (.ok (crcWords Config.init (wordsSinceReset [] rs)))

/-- R110: an access that is not for an instance leaves its ACC and its parameters as they were, and an event at one instance,
such as its own reset, leaves every other instance exactly as it was. That an access outside an instance's window is not for
it is the model's choice where a platform could map the window a second time (log entry 11: no alias). -/
def Obligations.InstancesShareNoState : Prop :=
  (∀ (a : BusAccess) (us us' : List BlockUnit) (k : Nat) (u : BlockUnit),
    platformAccess a us = .next us' → us[k]? = some u → u.state.power = .operational → u.state.portFree →
    a.addr < u.params.base ∨ u.params.base + 16 ≤ a.addr →
      ∃ u', us'[k]? = some u' ∧ u'.state.acc = u.state.acc ∧ u'.params = u.params) ∧
  (∀ (ev : HostEvent) (us us' : List BlockUnit) (j k : Nat),
    platformAt ev j us = .next us' → j ≠ k → us'[k]? = us[k]?)

/-- R124: where computations do not overlap, a computation's result read, the RD_DR after its last word (R127), returns the
checksum of that computation's own words, whatever runs before and after it; and no transaction of another computation, be it
the same master's, may stand between a computation's CRC.RESET and a word of it. -/
def Obligations.SeparateComputationsReadTheirOwnChecksum : Prop :=
  (∀ (impl : CrcImpl) (c : ComputationId) (before mid after : List MasterRequest) (s : State),
    s.power = .operational → s.portFree →
    (∀ (xs ys : List MasterRequest) (x : MasterRequest), mid = xs ++ x :: ys → x.source = c →
      x.req.decoded = .legal .rdDr → ∃ y ∈ ys, y.source = c ∧ y.feedsWord = true) →
    noOverlap none (before ++ ⟨c, crcReset⟩ :: (mid ++ ⟨c, crcResult⟩ :: after)) = true →
      ∃ t out, runRequests impl ((before ++ ⟨c, crcReset⟩ :: (mid ++ ⟨c, crcResult⟩ :: after)).map (·.req)) s =
          .next (t, out) ∧
        out[before.length + 1 + mid.length]? =
          some (.ok (checksum (wordsSinceReset [] ((mid.filter fun t => t.source == c).map (·.req)))))) ∧
  (∀ (c : ComputationId) (before mid after : List MasterRequest) (x y : MasterRequest),
    x.source ≠ c → y ∈ after → y.source = c → y.feedsWord = true →
      noOverlap none (before ++ ⟨c, crcReset⟩ :: (mid ++ x :: after)) = false)

/-- R53 and R54: each statement makes the request of its row of the table, with every offset and SIZE of the raw forms, and
`IDLE n` makes n idle cycles, for every n (that n has no upper bound is the model's choice, log entry 19); literals and
offsets out of range are refused; the raw word forms of the legal descriptors are the named forms; and the pseudo-instructions expand as the table says. -/
def Obligations.AssemblerExpandsItsStatements : Prop :=
  (∀ (policy : PadPolicy) (n : Nat), n < 2 ^ 32 →
    assembleStmt policy (.wrDR n) = .ok [.request ⟨true, 0b10#2, 0x0#4, BitVec.ofNat 32 n⟩] ∧
    assembleStmt policy (.wrCR n) = .ok [.request ⟨true, 0b10#2, 0x4#4, BitVec.ofNat 32 n⟩] ∧
    assembleStmt policy (.rdDR (some n)) = .ok [.request ⟨false, 0b10#2, 0x0#4, 0x00000000#32⟩] ∧
    (∀ (size : BitVec 2) (off : Nat), off < 16 →
      assembleStmt policy (.wrRaw size off n) =
        .ok [.request ⟨true, size, BitVec.ofNat 4 off, BitVec.ofNat 32 n⟩])) ∧
  (∀ policy : PadPolicy,
    assembleStmt policy (.rdDR none) = .ok [.request ⟨false, 0b10#2, 0x0#4, 0x00000000#32⟩] ∧
    assembleStmt policy .rdCR = .ok [.request ⟨false, 0b10#2, 0x4#4, 0x00000000#32⟩] ∧
    (∀ (size : BitVec 2) (off : Nat), off < 16 →
      assembleStmt policy (.rdRaw size off) = .ok [.request ⟨false, size, BitVec.ofNat 4 off, 0x00000000#32⟩]) ∧
    (∀ n : Nat, assembleStmt policy (.idle n) =
      .ok (List.replicate n (.cycle ⟨false, false, ⟨false, 0b00#2, 0x0#4, 0x00000000#32⟩⟩))) ∧
    assembleStmt policy .crcReset = .ok [.request ⟨true, 0b10#2, 0x4#4, 0x00000001#32⟩]) ∧
  (∀ n : Nat, (Request.mk true 0b10#2 0x0#4 (BitVec.ofNat 32 n)).descriptor = 0x60#7 ∧
    (Request.mk false 0b10#2 0x0#4 0#32).descriptor = 0x20#7 ∧
    (Request.mk true 0b10#2 0x4#4 (BitVec.ofNat 32 n)).descriptor = 0x64#7 ∧
    (Request.mk false 0b10#2 0x4#4 0#32).descriptor = 0x24#7 ∧
    (Request.mk true 0b00#2 0x0#4 (BitVec.ofNat 32 n)).descriptor = 0x40#7) ∧
  [sizeOfLetter 'B', sizeOfLetter 'H', sizeOfLetter 'W', sizeOfLetter 'X'] =
    [some 0b00#2, some 0b01#2, some 0b10#2, some 0b11#2] ∧
  (∀ (policy : PadPolicy) (n : Nat), 2 ^ 32 ≤ n →
    assembleStmt policy (.wrDR n) = .error .outOfRange ∧ assembleStmt policy (.wrCR n) = .error .outOfRange ∧
    assembleStmt policy (.rdDR (some n)) = .error .outOfRange ∧
    assembleStmt policy (.crcFeed n) = .error .outOfRange ∧
    (∀ (size : BitVec 2) (off : Nat), assembleStmt policy (.wrRaw size off n) = .error .outOfRange)) ∧
  (∀ (policy : PadPolicy) (size : BitVec 2) (off n : Nat), 16 ≤ off →
    assembleStmt policy (.wrRaw size off n) = .error .outOfRange ∧
    assembleStmt policy (.rdRaw size off) = .error .outOfRange) ∧
  (∀ (policy : PadPolicy) (n : Nat),
    assembleStmt policy (.wrDR n) = assembleStmt policy (.wrRaw 0b10#2 0x0 n) ∧
    assembleStmt policy (.wrCR n) = assembleStmt policy (.wrRaw 0b10#2 0x4 n) ∧
    assembleStmt policy (.rdDR none) = assembleStmt policy (.rdRaw 0b10#2 0x0) ∧
    assembleStmt policy .rdCR = assembleStmt policy (.rdRaw 0b10#2 0x4)) ∧
  (∀ (policy : PadPolicy) (ws : List Nat),
    assembleStmt policy .crcReset = assembleStmt policy (.wrCR 0x00000001) ∧
    assembleStmt policy .crcResult = assembleStmt policy (.rdDR none) ∧
    (∀ w, assembleStmt policy (.crcFeed w) = assembleStmt policy (.wrDR w)) ∧
    assembleStmt policy (.crcWords ws) = assemble policy (ws.map Stmt.crcFeed)) ∧
  (∀ bs : List Nat, bs.all byteLiteralOk = true →
    assembleStmt .zeroPad (.crcBuf bs) =
      assemble .zeroPad (.crcReset ::
        ((frame (zeroPadded (bs.map (BitVec.ofNat 8)))).map fun w => Stmt.crcFeed w.toNat) ++ [.crcResult]))
end

