-- ==== Sys2Proof/Laws/Crc.lean ====
section
/-! SUPPORT. Small lemmas about the CRC arithmetic: the step and its iterates under XOR, and the first unfoldings. -/

namespace Sys2Proof.Machine

open Sys2Proof

@[simp] theorem crcSteps_zero (x : Word) : crcSteps 0 x = x := rfl

theorem crcSteps_succ (n : Nat) (x : Word) : crcSteps (n + 1) x = crcSteps n (crcStep x) := rfl

/-- The step is additive: it commutes with XOR. -/
theorem crcStep_xor (x y : Word) : crcStep (x ^^^ y) = crcStep x ^^^ crcStep y := by
  unfold crcStep
  rw [BitVec.getElem_xor]
  cases x[31] <;> cases y[31] <;> simp only [Bool.xor_false, Bool.xor_true, Bool.not_true, Bool.not_false,
    BitVec.shiftLeft_xor_distrib, if_true, if_false, Bool.false_eq_true]
  · ac_rfl
  · ac_rfl
  · rw [show ∀ a b p : Word, (a ^^^ p) ^^^ (b ^^^ p) = (a ^^^ b) ^^^ (p ^^^ p) from fun a b p => by ac_rfl]
    rw [BitVec.xor_self, BitVec.xor_zero]

/-- Any number of steps commutes with XOR. -/
theorem crcSteps_xor (n : Nat) (x y : Word) : crcSteps n (x ^^^ y) = crcSteps n x ^^^ crcSteps n y := by
  induction n generalizing x y with
  | zero => rfl
  | succ n ih => simp only [crcSteps_succ, crcStep_xor, ih]

/-- Steps add up. -/
theorem crcSteps_add (m n : Nat) (x : Word) : crcSteps (m + n) x = crcSteps n (crcSteps m x) := by
  induction m generalizing x with
  | zero => rw [Nat.zero_add, crcSteps_zero]
  | succ m ih => rw [Nat.succ_add, crcSteps_succ, crcSteps_succ, ih]

/-- One more step at the end. -/
theorem crcSteps_succ_last (n : Nat) (x : Word) : crcSteps (n + 1) x = crcStep (crcSteps n x) := by
  rw [crcSteps_add]; rfl

/-- Zero stays zero under the steps. -/
@[simp] theorem crcSteps_zero_word (n : Nat) : crcSteps n 0#32 = 0#32 := by
  induction n with
  | zero => rfl
  | succ n ih => rw [crcSteps_succ, show crcStep 0#32 = 0#32 by decide, ih]

/-- A bit-input iteration is a step of the accumulator with the data bit XORed into bit 31. -/
theorem lfsrStep_eq (acc : Word) (b : Bool) :
    lfsrStep acc b = crcStep (acc ^^^ (if b then 0x80000000#32 else 0#32)) := by
  unfold lfsrStep crcStep
  cases b
  · simp
  · rw [BitVec.getElem_xor, BitVec.shiftLeft_xor_distrib]
    simp

/-- The model's iterated step is Mathlib's iterate. -/
theorem crcStep_iterate (n : Nat) (x : Word) : crcStep^[n] x = crcSteps n x := by
  induction n generalizing x with
  | zero => rfl
  | succ n ih => rw [Function.iterate_succ_apply, ih]; rfl

/-- The update over a sequence goes part by part. -/
theorem crcWords_append (acc : Word) (xs ys : List Word) : crcWords acc (xs ++ ys) = crcWords (crcWords acc xs) ys := by
  induction xs generalizing acc with
  | nil => rfl
  | cons x xs ih => exact ih _

/-- Induction over a 32-bit value as a sum of its bits: a property of 0 and of every single bit that XOR keeps holds of every
value. -/
theorem word_xor_induction (P : Word → Prop) (h0 : P 0#32) (hx : ∀ a b, P a → P b → P (a ^^^ b))
    (hb : ∀ i < 32, P (1#32 <<< i)) (v : Word) : P v := by
  have low : ∀ n ≤ 32, P (v &&& BitVec.ofNat 32 (2 ^ n - 1)) := by
    intro n
    induction n with
    | zero => intro _; simpa using h0
    | succ n ih =>
      intro hn
      have e : v &&& BitVec.ofNat 32 (2 ^ (n + 1) - 1) =
          (v &&& BitVec.ofNat 32 (2 ^ n - 1)) ^^^ (if v.getLsbD n then 1#32 <<< n else 0#32) := by
        ext i hi
        have h1 : ∀ m, (BitVec.ofNat 32 (2 ^ m - 1))[i] = decide (i < m) := by
          intro m
          simp [← BitVec.getLsbD_eq_getElem, BitVec.getLsbD_ofNat, hi, Nat.testBit_two_pow_sub_one]
        rw [BitVec.getElem_and, BitVec.getElem_xor, BitVec.getElem_and, h1, h1]
        by_cases hc : i = n
        · subst hc
          cases hv : v[i] <;> simp [hv, hi]
        · have : (if v.getLsbD n = true then 1#32 <<< n else 0#32)[i] = false := by
            split
            · simp only [BitVec.getElem_shiftLeft]
              by_cases hh : i < n <;> simp [hh]; omega
            · simp
          rw [this, Bool.xor_false]
          congr 1; simp; omega
      rw [e]
      refine hx _ _ (ih (by omega)) ?_
      split
      · exact hb n (by omega)
      · exact h0
  have h := low 32 (le_refl _)
  rwa [show BitVec.ofNat 32 (2 ^ 32 - 1) = BitVec.allOnes 32 by decide, BitVec.and_allOnes] at h

end Sys2Proof.Machine
end

