-- ==== Sys2Proof/Laws/Decode.lean ====
section
/-! SUPPORT. Small lemmas about descriptors and byte lanes: the bits of a word made of four bytes, and the ways back. -/

namespace Sys2Proof

/-- A request made from a descriptor has that descriptor. -/
@[simp] theorem descriptor_ofDescriptor (q : Descriptor) (d : Word) : (Request.ofDescriptor q d).descriptor = q := by
  simp only [Request.ofDescriptor, Request.descriptor]
  revert q; decide

/-- A bit of a byte lane. -/
theorem byteLane_getElem (w : Word) (k i : Nat) (hi : i < 8) : (byteLane w k)[i] = w.getLsbD (8 * k + i) := by
  unfold byteLane; simp

/-- A bit of the word whose byte lanes are given. -/
theorem wordOfBytes_getElem (b0 b1 b2 b3 : Byte) (i : Nat) (hi : i < 32) :
    (wordOfBytes b0 b1 b2 b3)[i] =
      if i < 8 then b0.getLsbD i else if i < 16 then b1.getLsbD (i - 8)
      else if i < 24 then b2.getLsbD (i - 16) else b3.getLsbD (i - 24) := by
  unfold wordOfBytes
  simp only [BitVec.getElem_or, BitVec.getElem_setWidth, BitVec.getElem_shiftLeft]
  have : i < 8 ∨ (8 ≤ i ∧ i < 16) ∨ (16 ≤ i ∧ i < 24) ∨ (24 ≤ i ∧ i < 32) := by omega
  rcases this with h | ⟨h1, h2⟩ | ⟨h1, h2⟩ | ⟨h1, h2⟩
  · simp [h, show i < 16 by omega, show i < 24 by omega]
  · simp [h1, h2, show i < 24 by omega, show ¬ i < 8 by omega]
  · simp [h2, show ¬ i < 16 by omega, show ¬ i < 8 by omega, BitVec.getLsbD_of_ge b0 i (by omega),
      BitVec.getLsbD_of_ge b1 (i - 8) (by omega)]
  · simp [show ¬ i < 16 by omega, show ¬ i < 8 by omega, show ¬ i < 24 by omega,
      BitVec.getLsbD_of_ge b0 i (by omega), BitVec.getLsbD_of_ge b1 (i - 8) (by omega),
      BitVec.getLsbD_of_ge b2 (i - 16) (by omega)]

/-- A word is made of its byte lanes. -/
theorem wordOfBytes_byteLane (w : Word) :
    wordOfBytes (byteLane w 0) (byteLane w 1) (byteLane w 2) (byteLane w 3) = w := by
  ext i hi
  rw [wordOfBytes_getElem]
  unfold byteLane
  simp only [BitVec.getLsbD_extractLsb', ← BitVec.getLsbD_eq_getElem]
  have : i < 8 ∨ (8 ≤ i ∧ i < 16) ∨ (16 ≤ i ∧ i < 24) ∨ (24 ≤ i ∧ i < 32) := by omega
  rcases this with h | ⟨h1, h2⟩ | ⟨h1, h2⟩ | ⟨h1, h2⟩
  · simp [h]
  · simp [show ¬ i < 8 by omega, h2, show i - 8 < 8 by omega, show 8 + (i - 8) = i by omega]
  · simp [show ¬ i < 8 by omega, show ¬ i < 16 by omega, h2, show i - 16 < 8 by omega, show 16 + (i - 16) = i by omega]
  · simp [show ¬ i < 8 by omega, show ¬ i < 16 by omega, show ¬ i < 24 by omega, show i - 24 < 8 by omega,
      show 24 + (i - 24) = i by omega]

/-- The byte lanes of a word made of four bytes are those bytes. -/
theorem byteLane_wordOfBytes (b0 b1 b2 b3 : Byte) :
    byteLane (wordOfBytes b0 b1 b2 b3) 0 = b0 ∧ byteLane (wordOfBytes b0 b1 b2 b3) 1 = b1 ∧
    byteLane (wordOfBytes b0 b1 b2 b3) 2 = b2 ∧ byteLane (wordOfBytes b0 b1 b2 b3) 3 = b3 := by
  refine ⟨?_, ?_, ?_, ?_⟩ <;> ext i hi <;>
    rw [byteLane_getElem _ _ _ hi, BitVec.getLsbD_eq_getElem (by omega), wordOfBytes_getElem]
  · simp [hi, BitVec.getLsbD_eq_getElem]
  · simp [show ¬ 8 + i < 8 by omega, show 8 + i < 16 by omega, hi, BitVec.getLsbD_eq_getElem]
  · simp [show ¬ 16 + i < 8 by omega, show ¬ 16 + i < 16 by omega, show 16 + i < 24 by omega, hi,
      BitVec.getLsbD_eq_getElem]
  · simp [show ¬ 24 + i < 8 by omega, show ¬ 24 + i < 16 by omega, show ¬ 24 + i < 24 by omega, hi,
      BitVec.getLsbD_eq_getElem]

end Sys2Proof
end

