-- ==== Sys2Proof/Laws/Duties.lean ====
section
/-! SUPPORT. What the duty of R124 gives a computation: while it is open, every transaction is its own. -/

namespace Sys2Proof.Machine

open Sys2Proof

/-- The tail of a sequence whose computations do not overlap is one too, from whatever owner the front leaves. -/
theorem noOverlap_suffix {owner : Option ComputationId} (xs ys : List MasterRequest)
    (h : noOverlap owner (xs ++ ys) = true) : ∃ owner', noOverlap owner' ys = true := by
  induction xs generalizing owner with
  | nil => exact ⟨owner, h⟩
  | cons x xs ih =>
    simp only [List.cons_append, noOverlap, Bool.and_eq_true] at h
    exact ih h.2

/-- An open computation's own transaction leaves it open, unless it is the result read. -/
theorem ownerAfter_own {c : ComputationId} {t : MasterRequest} {later : List MasterRequest} (ht : t.source = c)
    (h : t.req.decoded = .legal .rdDr → ∃ u ∈ later, u.source = c ∧ u.feedsWord = true) :
    ownerAfter (some c) t later = some c := by
  unfold ownerAfter
  cases hd : t.req.decoded with
  | illegal e => rfl
  | legal i =>
    cases i with
    | wrDr d => simp only [ht]
    | rdDr =>
      obtain ⟨u, hu, hs, hw⟩ := h hd
      have : (later.any fun u => u.source == t.source && u.feedsWord) = true :=
        List.any_eq_true.mpr ⟨u, hu, by simp [hs, hw, ht]⟩
      simp only [this, if_true]
    | wrCr d => simp [ht]
    | rdCr => rfl

/-- While a computation is open and its result read is still to come, every transaction is its own, and it stays open. -/
theorem noOverlap_owned {c : ComputationId} (mid rest : List MasterRequest)
    (hr : ∀ (xs ys : List MasterRequest) (x : MasterRequest), mid = xs ++ x :: ys → x.source = c →
      x.req.decoded = .legal .rdDr → ∃ y ∈ ys ++ rest, y.source = c ∧ y.feedsWord = true)
    (h : noOverlap (some c) (mid ++ rest) = true) :
    (∀ t ∈ mid, t.source = c) ∧ noOverlap (some c) rest = true := by
  induction mid with
  | nil => exact ⟨fun t ht => by simp at ht, h⟩
  | cons t ts ih =>
    simp only [List.cons_append, noOverlap, Bool.and_eq_true, beq_iff_eq] at h
    obtain ⟨ht, h⟩ := h
    rw [ownerAfter_own ht (hr [] ts t rfl ht)] at h
    obtain ⟨h1, h2⟩ := ih (fun xs ys x e => hr (t :: xs) ys x (by rw [e]; rfl)) h
    exact ⟨fun u hu => (List.mem_cons.mp hu).elim (fun e => e ▸ ht) (h1 u), h2⟩

end Sys2Proof.Machine
end

