-- ==== Sys2Proof/Laws/HostSeq.lean ====
section
/-! SUPPORT. Small lemmas about framing: whole groups frame part by part, and padding leaves a whole number of groups. -/

namespace Sys2Proof.Machine

open Sys2Proof

/-- A buffer of whole groups frames apart from what follows it. -/
theorem frame_append (xs ys : List Byte) (h : xs.length % 4 = 0) : frame (xs ++ ys) = frame xs ++ frame ys := by
  unfold frame Config.wordBytes
  have hl : (xs ++ ys).length / 4 = xs.length / 4 + ys.length / 4 := by rw [List.length_append]; omega
  rw [hl, List.range_add, List.map_append, List.map_map]
  congr 1
  · refine List.map_congr_left fun i hi => ?_
    have : i < xs.length / 4 := by simpa using hi
    unfold bufWord
    simp only [List.getD_eq_getElem?_getD]
    rw [List.getElem?_append_left (by omega), List.getElem?_append_left (by omega),
      List.getElem?_append_left (by omega), List.getElem?_append_left (by omega)]
  · refine List.map_congr_left fun i hi => ?_
    simp only [Function.comp]
    unfold bufWord
    simp only [List.getD_eq_getElem?_getD]
    rw [List.getElem?_append_right (by omega), List.getElem?_append_right (by omega),
      List.getElem?_append_right (by omega), List.getElem?_append_right (by omega)]
    congr 4 <;> omega

/-- One group frames into its word. -/
theorem frame_four (b0 b1 b2 b3 : Byte) : frame [b0, b1, b2, b3] = [wordOfBytes b0 b1 b2 b3] := by
  simp [frame, Config.wordBytes, bufWord, List.range_succ]

/-- A padded buffer has whole groups only. -/
theorem zeroPadded_length (buf : List Byte) : (zeroPadded buf).length % 4 = 0 := by
  simp [zeroPadded, paddingBytes]; omega

/-- Padding looks only at the last, partial group. -/
theorem zeroPadded_append (xs ys : List Byte) (h : xs.length % 4 = 0) :
    zeroPadded (xs ++ ys) = xs ++ zeroPadded ys := by
  simp only [zeroPadded, paddingBytes, List.append_assoc, List.length_append]
  rw [show (xs.length + ys.length) % 4 = ys.length % 4 by omega]

end Sys2Proof.Machine
end

