-- ==== Sys2Proof/Laws/State.lean ====
section
/-! SUPPORT. One lemma for each field of State under each named update, so that no proof unfolds a record update. -/

namespace Sys2Proof.Machine

open Sys2Proof

variable (s : State)

@[simp] theorem loadInit_acc : (loadInit s).acc = Config.init := rfl
@[simp] theorem loadInit_shiftCnt : (loadInit s).shiftCnt = s.shiftCnt := rfl
@[simp] theorem loadInit_dataShift : (loadInit s).dataShift = s.dataShift := rfl
@[simp] theorem loadInit_outstanding : (loadInit s).outstanding = s.outstanding := rfl
@[simp] theorem loadInit_resp : (loadInit s).resp = s.resp := rfl
@[simp] theorem loadInit_power : (loadInit s).power = s.power := rfl
@[simp] theorem loadInit_pending : (loadInit s).pending = s.pending := rfl
@[simp] theorem loadInit_freeIdx : (loadInit s).freeIdx = s.freeIdx := rfl

@[simp] theorem writeDR_acc (d : Word) : (writeDR d s).acc = crcUpdate s.acc d := rfl
@[simp] theorem writeDR_shiftCnt (d : Word) : (writeDR d s).shiftCnt = s.shiftCnt := rfl
@[simp] theorem writeDR_dataShift (d : Word) : (writeDR d s).dataShift = s.dataShift := rfl
@[simp] theorem writeDR_outstanding (d : Word) : (writeDR d s).outstanding = s.outstanding := rfl
@[simp] theorem writeDR_resp (d : Word) : (writeDR d s).resp = s.resp := rfl
@[simp] theorem writeDR_power (d : Word) : (writeDR d s).power = s.power := rfl
@[simp] theorem writeDR_pending (d : Word) : (writeDR d s).pending = s.pending := rfl
@[simp] theorem writeDR_freeIdx (d : Word) : (writeDR d s).freeIdx = s.freeIdx := rfl

@[simp] theorem respondOk_acc (v : Word) : (respondOk v s).acc = s.acc := rfl
@[simp] theorem respondOk_shiftCnt (v : Word) : (respondOk v s).shiftCnt = s.shiftCnt := rfl
@[simp] theorem respondOk_dataShift (v : Word) : (respondOk v s).dataShift = s.dataShift := rfl
@[simp] theorem respondOk_outstanding (v : Word) : (respondOk v s).outstanding = s.outstanding := rfl
@[simp] theorem respondOk_resp (v : Word) : (respondOk v s).resp = some (.ok v) := rfl
@[simp] theorem respondOk_power (v : Word) : (respondOk v s).power = s.power := rfl
@[simp] theorem respondOk_pending (v : Word) : (respondOk v s).pending = s.pending := rfl
@[simp] theorem respondOk_freeIdx (v : Word) : (respondOk v s).freeIdx = s.freeIdx := rfl

@[simp] theorem busError_acc (c : Cause) : (busError c s).acc = s.acc := rfl
@[simp] theorem busError_shiftCnt (c : Cause) : (busError c s).shiftCnt = s.shiftCnt := rfl
@[simp] theorem busError_dataShift (c : Cause) : (busError c s).dataShift = s.dataShift := rfl
@[simp] theorem busError_outstanding (c : Cause) : (busError c s).outstanding = s.outstanding := rfl
@[simp] theorem busError_resp (c : Cause) : (busError c s).resp = some (.err c) := rfl
@[simp] theorem busError_power (c : Cause) : (busError c s).power = s.power := rfl
@[simp] theorem busError_pending (c : Cause) : (busError c s).pending = s.pending := rfl
@[simp] theorem busError_freeIdx (c : Cause) : (busError c s).freeIdx = s.freeIdx := rfl

@[simp] theorem idle_acc : (idle s).acc = s.acc := rfl
@[simp] theorem idle_shiftCnt : (idle s).shiftCnt = s.shiftCnt := rfl
@[simp] theorem idle_dataShift : (idle s).dataShift = s.dataShift := rfl
@[simp] theorem idle_outstanding : (idle s).outstanding = s.outstanding := rfl
@[simp] theorem idle_resp : (idle s).resp = none := rfl
@[simp] theorem idle_power : (idle s).power = s.power := rfl
@[simp] theorem idle_pending : (idle s).pending = s.pending := rfl
@[simp] theorem idle_freeIdx : (idle s).freeIdx = s.freeIdx := rfl

@[simp] theorem hardReset_acc : (hardReset s).acc = Config.init := rfl
@[simp] theorem hardReset_shiftCnt : (hardReset s).shiftCnt = 0 := rfl
@[simp] theorem hardReset_dataShift : (hardReset s).dataShift = 0#32 := rfl
@[simp] theorem hardReset_outstanding : (hardReset s).outstanding = none := rfl
@[simp] theorem hardReset_resp : (hardReset s).resp = none := rfl
@[simp] theorem hardReset_power : (hardReset s).power = .operational := rfl
@[simp] theorem hardReset_pending : (hardReset s).pending = s.pending := rfl
@[simp] theorem hardReset_freeIdx : (hardReset s).freeIdx = s.freeIdx := rfl

@[simp] theorem unspecified_acc : (unspecified s).acc = Config.powerUpAcc s.freeIdx := rfl
@[simp] theorem unspecified_shiftCnt : (unspecified s).shiftCnt = Config.powerUpShiftCnt s.freeIdx := rfl
@[simp] theorem unspecified_dataShift : (unspecified s).dataShift = Config.powerUpDataShift s.freeIdx := rfl
@[simp] theorem unspecified_outstanding : (unspecified s).outstanding = none := rfl
@[simp] theorem unspecified_resp : (unspecified s).resp = none := rfl
@[simp] theorem unspecified_power : (unspecified s).power = .unreset := rfl
@[simp] theorem unspecified_pending : (unspecified s).pending = s.pending := rfl
@[simp] theorem unspecified_freeIdx : (unspecified s).freeIdx = s.freeIdx + 1 := rfl

@[simp] theorem serialEdge_acc (f : SerialForm) (r : Request) (d : Word) : (serialEdge f r d s).acc = serialAcc f d s := rfl
@[simp] theorem serialEdge_shiftCnt (f : SerialForm) (r : Request) (d : Word) : (serialEdge f r d s).shiftCnt = serialShiftCnt s := rfl
@[simp] theorem serialEdge_dataShift (f : SerialForm) (r : Request) (d : Word) : (serialEdge f r d s).dataShift = serialDataShift f d s := rfl
@[simp] theorem serialEdge_outstanding (f : SerialForm) (r : Request) (d : Word) : (serialEdge f r d s).outstanding = if serialReady s then none else some r := rfl
@[simp] theorem serialEdge_resp (f : SerialForm) (r : Request) (d : Word) : (serialEdge f r d s).resp = if serialReady s then some (.ok 0x00000000#32) else none := rfl
@[simp] theorem serialEdge_power (f : SerialForm) (r : Request) (d : Word) : (serialEdge f r d s).power = s.power := rfl
@[simp] theorem serialEdge_pending (f : SerialForm) (r : Request) (d : Word) : (serialEdge f r d s).pending = s.pending := rfl
@[simp] theorem serialEdge_freeIdx (f : SerialForm) (r : Request) (d : Word) : (serialEdge f r d s).freeIdx = s.freeIdx := rfl

@[simp] theorem writeCR_acc (d : Word) : (writeCR d s).acc = if resetBit d then Config.init else s.acc := by
  unfold writeCR; split <;> rfl
@[simp] theorem writeCR_shiftCnt (d : Word) : (writeCR d s).shiftCnt = s.shiftCnt := by
  unfold writeCR; split <;> rfl
@[simp] theorem writeCR_dataShift (d : Word) : (writeCR d s).dataShift = s.dataShift := by
  unfold writeCR; split <;> rfl
@[simp] theorem writeCR_outstanding (d : Word) : (writeCR d s).outstanding = s.outstanding := by
  unfold writeCR; split <;> rfl
@[simp] theorem writeCR_resp (d : Word) : (writeCR d s).resp = s.resp := by
  unfold writeCR; split <;> rfl
@[simp] theorem writeCR_power (d : Word) : (writeCR d s).power = s.power := by
  unfold writeCR; split <;> rfl
@[simp] theorem writeCR_pending (d : Word) : (writeCR d s).pending = s.pending := by
  unfold writeCR; split <;> rfl
@[simp] theorem writeCR_freeIdx (d : Word) : (writeCR d s).freeIdx = s.freeIdx := by
  unfold writeCR; split <;> rfl

end Sys2Proof.Machine
end

