-- ==== Sys2Proof/Laws/Ops.lean ====
section
/-! SUPPORT. What each shared operation does, said once: the arms of exec, one edge of CLK, one transaction, one event. -/

namespace Sys2Proof.Machine

open Sys2Proof

variable {s t : State}

@[simp] theorem andThen_next {σ τ φ ρ : Type} (a : σ) (f : σ → Host.Outcome τ φ ρ) : andThen (.next a) f = f a := rfl

/-- A bind that answers a next state answered one at each of its two parts. -/
theorem andThen_eq_next {σ τ φ ρ : Type} {o : Host.Outcome σ φ ρ} {f : σ → Host.Outcome τ φ ρ} {b : τ}
    (h : andThen o f = .next b) : ∃ a, o = .next a ∧ f a = .next b := by
  cases o with
  | next a => exact ⟨a, rfl, h⟩
  | fault e => cases h
  | refused e => cases h

/-- Each arm of exec, in terms of the named operations. -/
theorem exec_cases (i : Instr) (s : State) :
    (∃ d, i = .wrDr d ∧ exec i s = .next (respondOk 0#32 (writeDR d s))) ∨
    (i = .rdDr ∧ exec i s = .next (respondOk s.acc s)) ∨
    (∃ d, i = .wrCr d ∧ exec i s = .next (respondOk 0#32 (writeCR d s))) ∨
    (i = .rdCr ∧ exec i s = .next (respondOk 0#32 s)) := by
  cases i with
  | wrDr d => exact .inl ⟨d, rfl, rfl⟩
  | rdDr => exact .inr (.inl ⟨rfl, rfl⟩)
  | wrCr d => exact .inr (.inr (.inl ⟨d, rfl, rfl⟩))
  | rdCr => exact .inr (.inr (.inr ⟨rfl, rfl⟩))

/-- The arms of exec do not look at the last response. -/
theorem exec_resp (i : Instr) (s : State) (v : Option Resp) : exec i { s with resp := v } = exec i s := by
  cases i with
  | wrDr d => rfl
  | rdDr => rfl
  | wrCr d => simp only [exec, execWrCr, writeCR]; split <;> rfl
  | rdCr => rfl

/-- Once the port is free, nothing remains to be waited for. -/
theorem holdUntilDone_free (impl : CrcImpl) (n : Nat) (h : s.outstanding = none) : holdUntilDone impl n s = s := by
  cases n with
  | zero => rfl
  | succ n => simp [holdUntilDone, h]

/-- A free port is settled. -/
theorem settle_free (impl : CrcImpl) (h : s.outstanding = none) : settle impl s = s := holdUntilDone_free impl _ h

/-- One whole transaction on a reset block whose port is free. -/
theorem transact_free (impl : CrcImpl) (r : Request) (hp : s.power = .operational) (h : s.outstanding = none) :
    transact impl r s =
      match r.decoded with
      | .legal i   => exec i s
      | .illegal c => .next (busError c s) := by
  cases hd : r.decoded <;> simp only [transact, hp, hd, settle_free impl h]

/-- What one edge of CLK can do: a reset, an unspecified edge before the first reset, an idle cycle, or a cycle in which the
request on the pins is served. -/
theorem tick_cases {impl : CrcImpl} {p : Pins} (h : tick impl p s = .next t) :
    (p.rst = true ∧ t = hardReset s) ∨
    (p.rst = false ∧ s.power = .unreset ∧ p.reqValid = false ∧ t = unspecified s) ∨
    (p.rst = false ∧ s.power = .operational ∧ s.outstanding = none ∧ p.reqValid = false ∧ t = idle s) ∨
    (p.rst = false ∧ s.power = .operational ∧ p.reqValid = true ∧ (s.outstanding = none ∨ s.outstanding = some p.req) ∧
      serveCycle impl p.req s = .next t) := by
  unfold tick at h
  split at h
  · next hr => exact .inl ⟨hr, by cases h; rfl⟩
  · next hr =>
    have hr : p.rst = false := by simpa using hr
    cases hp : s.power with
    | unreset =>
      simp only [hp] at h
      split at h
      · cases h
      · next hv => exact .inr (.inl ⟨hr, rfl, by simpa using hv, by cases h; rfl⟩)
    | operational =>
      simp only [hp, tickRunning] at h
      cases ho : s.outstanding with
      | none =>
        simp only [ho] at h
        split at h
        · next hv => exact .inr (.inr (.inr ⟨hr, rfl, hv, .inl rfl, h⟩))
        · next hv => exact .inr (.inr (.inl ⟨hr, rfl, rfl, by simpa using hv, by cases h; rfl⟩))
      | some r =>
        simp only [ho] at h
        split at h
        · next hv =>
          obtain ⟨hv, rfl⟩ := hv
          exact .inr (.inr (.inr ⟨hr, rfl, hv, .inr rfl, h⟩))
        · cases h

/-- What serving a request for one cycle does: it always answers a next state. -/
theorem serveCycle_cases (impl : CrcImpl) (r : Request) (s : State) :
    (∃ c, r.decoded = .illegal c ∧ serveCycle impl r s = .next (busError c s)) ∨
    (∃ d, r.decoded = .legal (.wrDr d) ∧ serveCycle impl r s = .next (wrDrEdge impl r d s)) ∨
    (r.decoded = .legal .rdDr ∧ serveCycle impl r s = .next (respondOk s.acc s)) ∨
    (∃ d, r.decoded = .legal (.wrCr d) ∧ serveCycle impl r s = .next (respondOk 0#32 (writeCR d s))) ∨
    (r.decoded = .legal .rdCr ∧ serveCycle impl r s = .next (respondOk 0#32 s)) := by
  unfold serveCycle
  cases hd : r.decoded with
  | illegal c => exact .inl ⟨c, rfl, rfl⟩
  | legal i =>
    cases i with
    | wrDr d => exact .inr (.inl ⟨d, rfl, rfl⟩)
    | rdDr => exact .inr (.inr (.inl ⟨rfl, rfl⟩))
    | wrCr d => exact .inr (.inr (.inr (.inl ⟨d, rfl, rfl⟩)))
    | rdCr => exact .inr (.inr (.inr (.inr ⟨rfl, rfl⟩)))

/-- A run cycle by cycle goes part by part. -/
theorem runCycles_append (impl : CrcImpl) (ps qs : List Pins) (s : State) :
    runCycles impl (ps ++ qs) s =
      andThen (runCycles impl ps s) fun t => andThen (runCycles impl qs t.1) fun u => .next (u.1, t.2 ++ u.2) := by
  induction ps generalizing s with
  | nil => simp [runCycles]; cases h : runCycles impl qs s <;> rfl
  | cons p ps ih =>
    simp only [List.cons_append, runCycles]
    cases h : tick impl p s with
    | next s' =>
      simp only [andThen_next, ih]
      cases h1 : runCycles impl ps s' with
      | next t =>
        simp only [andThen_next]
        cases h2 : runCycles impl qs t.1 <;> simp [andThen]
      | fault e => rfl
      | refused e => rfl
    | fault e => rfl
    | refused e => rfl

end Sys2Proof.Machine
end

