-- ==== Sys2Proof/Laws/PerInstr.lean ====
section
/-! SUPPORT. Facts about every instruction as syntax, one lemma for each constructor: the encoder drives a descriptor with the
mask and match of its row of spec/opcode_table.json, and that descriptor is well formed (R48). -/

namespace Sys2Proof.Laws.EncodedRow

open Sys2Proof

/-- The match value of the instruction's row in spec/opcode_table.json. -/
def rowMatch : Instr → Descriptor
  | .wrDr _ => 0x60#7
  | .rdDr   => 0x20#7
  | .wrCr _ => 0x64#7
  | .rdCr   => 0x24#7

/-- The instruction is well formed, and its encoded descriptor is well formed and matches its row under the mask 0x7F. -/
def Statement (i : Instr) : Prop :=
  i.wellFormed = true ∧ Descriptor.wellFormed (encode i).1 = true ∧ (encode i).1 &&& 0x7F#7 = rowMatch i

theorem wrDr (d : Word) : Statement (.wrDr d) :=
  ⟨rfl, by simp only [encode]; decide, by simp only [encode, rowMatch]; decide⟩

theorem rdDr : Statement .rdDr := ⟨rfl, by decide, by decide⟩

theorem wrCr (d : Word) : Statement (.wrCr d) :=
  ⟨rfl, by simp only [encode]; decide, by simp only [encode, rowMatch]; decide⟩

theorem rdCr : Statement .rdCr := ⟨rfl, by decide, by decide⟩

end Sys2Proof.Laws.EncodedRow
end

