-- ==== Sys2Proof/Tests/Slice0.lean ====
section
/-! SUPPORT. Tests on fixed values, each from the spec (95_test_vectors.md unless a comment names a rule), and for every
statement that has hypotheses a witness that meets them together. -/

namespace Sys2Proof.Tests

open Sys2Proof Sys2Proof.Machine

/-! ### Helpers -/

/-- The reset state with another ACC. -/
def accState (acc : Word) : State := { State.reset with acc := acc }

/-- An outcome that is a next state of which `f` holds. -/
def nextIs (o : Host.Outcome State Fault Refusal) (f : State → Bool) : Bool :=
  match o with
  | .next s    => f s
  | .fault _   => false
  | .refused _ => false

/-- An outcome that is a given refusal. -/
def refusedAs (o : Host.Outcome State Fault Refusal) (r : Refusal) : Bool :=
  match o with
  | .next _    => false
  | .fault _   => false
  | .refused q => q == r

/-- A word access to an offset. -/
def wordWrite (off : BitVec 4) (d : Word) : Request := ⟨true, 0b10#2, off, d⟩

/-- A word read of an offset. -/
def wordRead (off : BitVec 4) : Request := ⟨false, 0b10#2, off, 0#32⟩

/-- The illegal request `WR.B DR, 0x39`. -/
def byteWrite : Request := ⟨true, 0b00#2, 0x0#4, 0x39#32⟩

/-- A serial `WR DR, 0x12345678` after its first cycle from INIT (section 2.3). -/
def midWrite : State :=
  { State.reset with acc := 0xDF564EB9#32, shiftCnt := 31, outstanding := some (wordWrite 0x0#4 0x12345678#32) }

/-- The same write after its 31st cycle (section 2.3). -/
def lastCycle : State :=
  { State.reset with acc := 0xEDA5CBCE#32, shiftCnt := 1, outstanding := some (wordWrite 0x0#4 0x12345678#32) }

/-- A block that has had no hardware reset since power-up. -/
def neverReset : State := { State.reset with power := .unreset }

/-! ### WellFormed: each check refuses an ill-formed term (R32, R49, R33, R15, R53, R124) -/

theorem test_sizeOk_refuses : Descriptor.sizeOk 0x40#7 = false ∧ Descriptor.sizeOk 0x10#7 = false ∧
    Descriptor.sizeOk 0x70#7 = false := by decide
theorem test_regOk_refuses : Descriptor.regOk 0x28#7 = false ∧ Descriptor.regOk 0x6C#7 = false := by decide
theorem test_byteOk_refuses : Descriptor.byteOk 0x62#7 = false ∧ Descriptor.byteOk 0x25#7 = false := by decide
theorem test_descriptor_wellFormed : Descriptor.wellFormed 0x60#7 = true ∧ Descriptor.wellFormed 0x24#7 = true ∧
    Descriptor.wellFormed 0x40#7 = false ∧ Descriptor.wellFormed 0x28#7 = false ∧
    Descriptor.wellFormed 0x62#7 = false := by decide
theorem test_disciplined_refuses : Instr.disciplined (.wrCr 0x2#32) = false ∧
    Instr.disciplined (.wrCr 0x1#32) = true := by decide
theorem test_stmt_refuses : Stmt.wellFormed (.wrDR 0x100000000) = false ∧ Stmt.wellFormed (.wrCR 0x100000000) = false ∧
    Stmt.wellFormed (.rdDR (some 0x100000000)) = false ∧ Stmt.wellFormed (.wrRaw 0b10#2 0x10 0) = false ∧
    Stmt.wellFormed (.rdRaw 0b10#2 0x10) = false ∧ Stmt.wellFormed (.crcFeed 0x100000000) = false ∧
    Stmt.wellFormed (.crcWords [0, 0x100000000]) = false ∧ Stmt.wellFormed (.crcBuf [0x100]) = false := by decide
/-- P5: host B (master 1) feeds a word inside host A's computation; B's word between A's words with a read of A before it
(R127); and a second computation of A's own master inside the first (U9). -/
theorem test_noOverlap_refuses :
    noOverlap none [⟨⟨0, 0⟩, crcReset⟩, ⟨⟨0, 0⟩, crcFeed 0x11111111#32⟩, ⟨⟨1, 0⟩, crcFeed 0x22222222#32⟩,
      ⟨⟨0, 0⟩, crcResult⟩] = false ∧
    noOverlap none [⟨⟨0, 0⟩, crcReset⟩, ⟨⟨0, 0⟩, crcFeed 0x11111111#32⟩, ⟨⟨0, 0⟩, crcResult⟩,
      ⟨⟨1, 0⟩, crcFeed 0x22222222#32⟩, ⟨⟨0, 0⟩, crcFeed 0x33333333#32⟩, ⟨⟨0, 0⟩, crcResult⟩] = false ∧
    noOverlap none [⟨⟨0, 0⟩, crcReset⟩, ⟨⟨0, 1⟩, crcReset⟩, ⟨⟨0, 1⟩, crcResult⟩, ⟨⟨0, 0⟩, crcResult⟩] = false := by
  decide
/-- Whole computations one after the other, the first with a read before its last word. -/
theorem test_noOverlap_accepts :
    noOverlap none [⟨⟨0, 0⟩, crcReset⟩, ⟨⟨0, 0⟩, crcFeed 1#32⟩, ⟨⟨0, 0⟩, crcResult⟩, ⟨⟨0, 0⟩, crcFeed 2#32⟩,
      ⟨⟨0, 0⟩, crcResult⟩, ⟨⟨1, 0⟩, crcReset⟩, ⟨⟨1, 0⟩, crcFeed 3#32⟩, ⟨⟨1, 0⟩, crcResult⟩] = true := by decide
theorem test_deliveredInOrder_refuses :
    deliveredInOrder [crcFeed 1#32, crcFeed 2#32] [crcFeed 2#32, crcFeed 1#32] = false := by decide
/-- P4's second computation begins without a reset. -/
theorem test_startsWithReset_refuses : startsWithReset [crcFeed 0x12345678#32, crcResult] = false ∧
    startsWithReset [wordWrite 0x4#4 0#32] = false ∧ startsWithReset (computation []) = true := by decide
theorem test_distinctWindows_refuses :
    distinctWindows [⟨⟨.parallel, 5⟩, State.reset⟩, ⟨⟨.parallel, 5⟩, State.reset⟩] = false := by decide

/-! ### Decoding: V-D1 to V-D16, the bits written WE SIZE REG BYTE -/

theorem test_decode_legal : decode 0b1_10_00_00#7 0x12345678#32 = .legal (.wrDr 0x12345678#32) ∧
    decode 0b0_10_00_00#7 0x12345678#32 = .legal .rdDr ∧
    decode 0b1_10_01_00#7 0x1#32 = .legal (.wrCr 0x1#32) ∧ decode 0b0_10_01_00#7 0x1#32 = .legal .rdCr := by decide
theorem test_decode_narrow : decode 0b1_00_00_00#7 0x39#32 = .illegal .size ∧
    decode 0b0_01_00_00#7 0#32 = .illegal .size ∧ decode 0b1_00_01_01#7 0#32 = .illegal .size ∧
    decode 0b0_01_00_10#7 0#32 = .illegal .size := by decide
theorem test_decode_misaligned : decode 0b1_10_00_10#7 0#32 = .illegal .align ∧
    decode 0b0_10_01_01#7 0#32 = .illegal .align := by decide
theorem test_decode_address : decode 0b0_10_10_00#7 0#32 = .illegal .addr ∧
    decode 0b1_10_11_00#7 0#32 = .illegal .addr ∧ decode 0b1_01_10_01#7 0#32 = .illegal .addr ∧
    decode 0b0_00_10_10#7 0#32 = .illegal .addr := by decide
theorem test_decode_reserved_size : decode 0b1_11_00_00#7 0#32 = .illegal .sizeRsvd ∧
    decode 0b1_11_11_00#7 0#32 = .illegal .sizeRsvd := by decide
/-- R99's codes. -/
theorem test_cause_codes : [Cause.sizeRsvd, .addr, .size, .align].map Cause.code = [1, 2, 3, 4] := by decide
/-- The container of log entry 2: refused where it is no 7-bit descriptor, and where operand bytes are missing. -/
theorem test_bytes_refused : decodeBytes [] = .error .empty ∧ decodeBytes [0xE0#8] = .error .notDescriptor ∧
    decodeBytes [0x60#8, 0x78#8, 0x56#8, 0x34#8] = .error .truncated := by decide
theorem test_encode_bytes : encodeBytes (.wrDr 0x12345678#32) = [0x60#8, 0x78#8, 0x56#8, 0x34#8, 0x12#8] ∧
    encodeBytes .rdCr = [0x24#8] := by decide
theorem test_table_words : decodeTableWord 8 0x60 = some (.wrDr 0#32) ∧ decodeTableWord 7 0x20 = some .rdDr ∧
    decodeTableWord 8 0x64 = some (.wrCr 0#32) ∧ decodeTableWord 8 0x24 = some .rdCr ∧
    decodeTableWord 8 0x40 = none := by decide

/-! ### CRC arithmetic: V-S1 to V-S11, V-U, and the table check of section 2.2 -/

theorem test_step : [0x00000000#32, 0x00000001#32, 0x40000000#32, 0x80000000#32, 0xC0000000#32, 0x7FFFFFFF#32,
      0xFFFFFFFF#32].map crcStep =
    [0x00000000#32, 0x00000002#32, 0x80000000#32, 0x04C11DB7#32, 0x84C11DB7#32, 0xFFFFFFFE#32, 0xFB3EE249#32] := by
  decide
theorem test_step_inverse : [0x04C11DB7#32, 0x00000002#32, 0xFB3EE249#32, 0xDF8A8A2B#32].map crcStepInv =
    [0x80000000#32, 0x00000001#32, 0xFFFFFFFF#32, 0xEDA5CBCE#32] := by decide
set_option maxRecDepth 100000 in
theorem test_update_from_init : crcUpdate 0xFFFFFFFF#32 0x00000001#32 = 0xC3C5C0CC#32 ∧
    crcUpdate 0xFFFFFFFF#32 0x80000000#32 = 0x61E2E066#32 ∧ crcUpdate 0xFFFFFFFF#32 0xDEADBEEF#32 = 0x81DA1A18#32 := by
  decide
set_option maxRecDepth 100000 in
theorem test_update_others : crcUpdate 0x00000000#32 0x80000000#32 = 0xA6E63D1D#32 ∧
    crcUpdate 0xDF8A8A2B#32 0x00000000#32 = 0x9FF5E078#32 ∧ crcUpdate 0x04C11DB7#32 0x00000000#32 = 0x490D678D#32 := by
  decide
theorem test_mask_parity : parity (0xEDCBA987#32 &&& crcMask.getD 31 0#32) = true ∧
    parity (0xEDCBA987#32 &&& crcMask.getD 15 0#32) = true ∧ parity (0xEDCBA987#32 &&& crcMask.getD 0 0#32) = true := by
  decide
set_option maxRecDepth 100000 in
/-- V-H24's check value in R69, over "123456789". -/
theorem test_bytewise_check : bytewiseCrc [0x31#8, 0x32#8, 0x33#8, 0x34#8, 0x35#8, 0x36#8, 0x37#8, 0x38#8, 0x39#8] =
    0x0376E6E7#32 := by decide

/-! ### The transactions: V-U3, V-U17, V-R1 to V-R8, P3 -/

set_option maxRecDepth 100000 in
theorem test_wrDr : nextIs (exec (.wrDr 0x12345678#32) State.reset)
    (fun t => t.acc == 0xDF8A8A2B#32 && t.resp == some (.ok 0#32)) = true := by decide
set_option maxRecDepth 100000 in
theorem test_wrDr_residue : nextIs (exec (.wrDr 0xDF8A8A2B#32) (accState 0xDF8A8A2B#32)) (fun t => t.acc == 0#32) = true := by
  decide
theorem test_rdDr : nextIs (exec .rdDr (accState 0xDF8A8A2B#32))
    (fun t => t.acc == 0xDF8A8A2B#32 && t.resp == some (.ok 0xDF8A8A2B#32)) = true := by decide
theorem test_wrCr_acts : nextIs (exec (.wrCr 0xFFFFFFFF#32) (accState 0xDF8A8A2B#32))
    (fun t => t.acc == 0xFFFFFFFF#32 && t.resp == some (.ok 0#32)) = true := by decide
theorem test_wrCr_ignores : nextIs (exec (.wrCr 0xFFFFFFFE#32) (accState 0xDF8A8A2B#32))
    (fun t => t.acc == 0xDF8A8A2B#32 && t.resp == some (.ok 0#32)) = true := by decide
theorem test_rdCr : nextIs (exec .rdCr (accState 0xDF8A8A2B#32))
    (fun t => t.acc == 0xDF8A8A2B#32 && t.resp == some (.ok 0#32)) = true := by decide
theorem test_error_response : nextIs (transact .parallel byteWrite (accState 0xDF8A8A2B#32))
    (fun t => t.acc == 0xDF8A8A2B#32 && t.ports == ⟨true, true, 0#32⟩) = true := by decide
/-- R82 and R35: a host observes neither the cause nor the data of a write. -/
theorem test_observed : (Resp.err .addr).observed false = (Resp.err .size).observed false ∧
    (Resp.ok 0#32).observed true = .written ∧ (Resp.ok 7#32).observed false = .readData 7#32 := by decide

/-! ### Cycles: section 2.3, P6, R122, R118 -/

theorem test_serial_first_cycle : nextIs (tick (.serial .xorShift) (holdPins (wordWrite 0x0#4 0x12345678#32)) State.reset)
    (fun t => t.acc == 0xDF564EB9#32 && t.shiftCnt == 31 && t.resp == none) = true := by decide
theorem test_serial_last_cycle : nextIs (tick (.serial .xorShift) (holdPins (wordWrite 0x0#4 0x12345678#32)) lastCycle)
    (fun t => t.acc == 0xDF8A8A2B#32 && t.shiftCnt == 0 && t.resp == some (.ok 0#32) && t.outstanding == none) = true := by
  decide
theorem test_reset_wins : nextIs (tick (.serial .xorShift) ⟨true, true, wordWrite 0x0#4 0x12345678#32⟩ lastCycle)
    (fun t => t.acc == 0xFFFFFFFF#32 && t.shiftCnt == 0 && t.resp == none && t.outstanding == none) = true := by decide
theorem test_changed_request : refusedAs (tick (.serial .xorShift) (holdPins (wordRead 0x0#4)) midWrite) .requestChanged = true ∧
    refusedAs (tick (.serial .xorShift) idlePins midWrite) .requestChanged = true := by decide
theorem test_no_reset_yet : refusedAs (tick .parallel (holdPins (wordRead 0x0#4)) neverReset) .noResetSincePowerUp = true ∧
    refusedAs (transact .parallel (wordRead 0x0#4) neverReset) .noResetSincePowerUp = true := by decide
set_option maxRecDepth 100000 in
/-- R73: a read issued during a serial write returns the updated ACC. -/
theorem test_read_waits : nextIs (transact (.serial .xorShift) (wordRead 0x0#4) midWrite)
    (fun t => t.resp == some (.ok 0xDF8A8A2B#32) && t.shiftCnt == 0) = true := by decide
/-- R120: after power-up, the edge with RST = 1 leaves ACC = INIT and the first transaction next. -/
theorem test_boot : nextIs (stepWith ⟨.parallel, 5⟩ { State.reset with pending := bootEvents [wordRead 0x0#4] })
    (fun t => nextIs (stepWith ⟨.parallel, 5⟩ t)
      fun u => u.acc == 0xFFFFFFFF#32 && u.power == .operational && u.pending == [.request (wordRead 0x0#4)]) = true := by
  decide
/-- R28: the last byte of the window is inside it and the next is not. -/
theorem test_window : windowOffset 0x50 0x5F = some 0xF#4 ∧ windowOffset 0x50 0x50 = some 0x0#4 ∧
    windowOffset 0x50 0x60 = none ∧ windowOffset 0x50 0x4F = none := by decide
/-- The next step runs the instruction that withFetchWord presents. -/
theorem test_fetch : nextIs (step (State.reset.withFetchWord 8 0x20))
    (fun t => t.resp == some (.ok 0xFFFFFFFF#32) && t.pending == []) = true := rfl

/-! ### Hosts: V-H2, V-H22, V-H24, V-H25, V-H26's first word, R95 -/

theorem test_frame : frame [0x78#8, 0x56#8, 0x34#8, 0x12#8] = [0x12345678#32] ∧
    hostFrame .big [0x78#8, 0x56#8, 0x34#8, 0x12#8] = [0x12345678#32] := by decide
theorem test_padding : frame (zeroPadded [0x55#8, 0x4D#8, 0x44#8, 0x76#8, 0x33#8]) = [0x76444D55#32, 0x00000033#32] ∧
    frame (zeroPadded [0xFF#8, 0xFF#8, 0xFF#8]) = [0x00FFFFFF#32] := by decide
set_option maxRecDepth 100000 in
theorem test_checksum : checksum [0x34333231#32, 0x38373635#32, 0x00000039#32] = 0xAFF19057#32 ∧
    checksum [0x03020100#32] = 0x76DBF7C7#32 := by decide
theorem test_compute_requests : computeRequests .zeroPad [0x39#8] = .ok [crcReset, crcFeed 0x00000039#32, crcResult] ∧
    computeRequests .reject [0x39#8] = .error .invalidInput := by decide
theorem test_hex : hexRender 0xAFF19057#32 = ['A', 'F', 'F', '1', '9', '0', '5', '7'] ∧
    hexRender 0x081B46CA#32 = ['0', '8', '1', 'B', '4', '6', 'C', 'A'] := by decide
/-- R114, U10: a computation that a hardware reset cuts has no result. -/
theorem test_abandoned : cycleVerdict [resetPins] [none] = .error .abandoned := by decide
/-- R9: bytes of the host's buffer in order. -/
theorem test_memRead : memRead [0x01#8, 0x02#8, 0x03#8] 1 2 = [0x02#8, 0x03#8] := by decide

/-! ### Assembler text: R53, R54 -/

theorem test_asm_write : readLine ("WR DR, 0x12345678 ; word".toList) = .ok (some (.wrDR 0x12345678)) := by decide
theorem test_asm_read : readLine ("RD DR -> 0xDF8A8A2B".toList) = .ok (some (.rdDR (some 0xDF8A8A2B))) := by decide
theorem test_asm_raw : readLine ("WR.B DR, 0x01".toList) = .ok (some (.wrRaw 0b00#2 0x0 1)) ∧
    readLine ("RD.W 0x8".toList) = .ok (some (.rdRaw 0b10#2 0x8)) := by decide
theorem test_asm_pseudo : readLine ("CRC.WORDS 1, 0x2".toList) = .ok (some (.crcWords [1, 2])) ∧
    readLine ("CRC.BUF [0x01, 0x02]".toList) = .ok (some (.crcBuf [1, 2])) ∧
    readLine ("CRC.BUF \"9\"".toList) = .ok (some (.crcBuf [0x39])) := by decide
theorem test_asm_refuses : readLine ("WR.Q DR, 1".toList) = .error .notAStatement ∧
    readLine ("; only a comment".toList) = .ok none ∧ readLine ("IDLE 3".toList) = .ok (some (.idle 3)) := by decide
/-- `WR.B DR, 0x01` is descriptor 0x40 (R53). -/
theorem test_asm_descriptor : assembleStmt .zeroPad (.wrRaw 0b00#2 0x0 1) = .ok [.request ⟨true, 0b00#2, 0x0#4, 1#32⟩] ∧
    (Request.mk true 0b00#2 0x0#4 1#32).descriptor = 0x40#7 := by decide

/-! ### Witnesses: for every statement that has hypotheses, a state and operands that meet them together -/

/-- The reset state's port is free. -/
theorem witness_free : State.reset.power = .operational ∧ State.reset.portFree := ⟨rfl, rfl, rfl, rfl⟩

/-- The witness of every statement about a transaction on a free port: the four legal requests and one illegal request of each
class, R49's four conditions at the ends of their ranges among them. -/
theorem witness_requests : (State.reset.power = .operational ∧ State.reset.portFree) ∧
    (wordWrite 0x0#4 0xFFFFFFFF#32).decoded = .legal (.wrDr 0xFFFFFFFF#32) ∧ (wordRead 0x0#4).decoded = .legal .rdDr ∧
    (wordWrite 0x4#4 0xFFFFFFFE#32).decoded = .legal (.wrCr 0xFFFFFFFE#32) ∧ (wordRead 0x4#4).decoded = .legal .rdCr ∧
    byteWrite.decoded = .illegal .size ∧ (wordRead 0x8#4).decoded = .illegal .addr ∧
    (wordRead 0xC#4).decoded = .illegal .addr ∧ (wordRead 0x1#4).decoded = .illegal .align ∧
    (Request.mk true 0b11#2 0x0#4 0#32).decoded = .illegal .sizeRsvd := ⟨witness_free, by decide⟩

theorem witness_IllegalDescriptorsFallIntoFourClasses : (State.reset.power = .operational ∧ State.reset.portFree) ∧
    byteWrite.decoded = .illegal .size := ⟨witness_free, by decide⟩

/-- The four conditions at 0x8 and 0xF, at 0x7, and at 0x1 and 0x7. -/
theorem witness_FirstErrorConditionGivesTheLabel :
    (Request.mk true 0b11#2 0xF#4 0#32).decoded = .illegal .sizeRsvd ∧
    (Request.mk true 0b10#2 0x8#4 0#32).decoded = .illegal .addr ∧
    (Request.mk true 0b00#2 0xF#4 0#32).decoded = .illegal .addr ∧
    (Request.mk true 0b01#2 0x7#4 0#32).decoded = .illegal .size ∧
    (Request.mk true 0b00#2 0x0#4 0#32).decoded = .illegal .size ∧
    (Request.mk false 0b10#2 0x7#4 0#32).decoded = .illegal .align ∧
    (Request.mk false 0b10#2 0x1#4 0#32).decoded = .illegal .align := by decide

theorem witness_EncodedInstructionsDecodeBack :
    (wordWrite 0x0#4 0x12345678#32).decoded = .legal (.wrDr 0x12345678#32) ∧ (wordWrite 0x0#4 0x12345678#32).we = true := by
  decide

theorem witness_ChecksumFoldsTheWordsFromInit : State.reset.acc = crcWords Config.init [] := by decide

theorem witness_UpdateIsTheXorNetwork : (31 : Nat) < 32 ∧ (0 : Nat) < 32 := by decide

theorem witness_UpdateIsABijectionInEachArgument : 0x64636261#32 ≠ 0x61626364#32 := by decide

/-- k = 1 and k = 32. -/
theorem witness_BitInputFormGivesTheWordUpdate : (State.reset.power = .operational ∧ State.reset.portFree) ∧
    (wordWrite 0x0#4 1#32).decoded = .legal (.wrDr 1#32) ∧ 1 ≤ 1 ∧ 1 ≤ 32 ∧ 32 ≤ 32 := ⟨witness_free, by decide⟩

theorem witness_ChecksumIsTheBytewiseCrcOfReversedWords : [0x61#8, 0x62#8, 0x63#8, 0x64#8].length % 4 = 0 := by decide

set_option maxRecDepth 100000 in
/-- The same word written twice; ACC = 0, ACC = INIT; the serial write. -/
theorem witness_WrDrFeedsTheWord : (accState 0#32).acc = 0#32 ∧ State.reset.acc = Config.init ∧
    nextIs (exec (.wrDr 7#32) State.reset) (fun t => nextIs (exec (.wrDr 7#32) t) fun _ => true) = true ∧
    (wordWrite 0x0#4 7#32).decoded = .legal (.wrDr 7#32) := by decide

set_option maxRecDepth 100000 in
theorem witness_RdDrReturnsTheAccumulator : (State.reset.power = .operational ∧ State.reset.portFree) ∧
    nextIs (exec .rdDr State.reset) (fun t => nextIs (exec .rdDr t) fun _ => true) = true ∧
    nextIs (exec .rdDr (hardReset midWrite)) (fun _ => true) = true ∧
    nextIs (exec (.wrCr 1#32) State.reset) (fun t => nextIs (exec (.wrDr 0x12345678#32) t) fun u =>
      nextIs (exec .rdDr u) fun _ => true) = true ∧
    (wordWrite 0x0#4 7#32).decoded = .legal (.wrDr 7#32) ∧ (wordRead 0x0#4).decoded = .legal .rdDr ∧ 1 ≤ 31 ∧ 31 < 32 :=
  ⟨witness_free, by decide⟩

/-- Both parities of D, and a second write of each kind. -/
theorem witness_WrCrActsOnBitZeroOnly : (0x1#32).toNat % 2 = 1 ∧ (0xFFFFFFFE#32).toNat % 2 = 0 ∧
    (accState 0xDF8A8A2B#32).acc = 0xDF8A8A2B#32 ∧
    nextIs (exec (.wrCr 1#32) (accState 0xDF8A8A2B#32)) (fun t => nextIs (exec (.wrCr 1#32) t) fun _ => true) = true ∧
    nextIs (exec (.wrCr 0#32) (accState 0xDF8A8A2B#32)) (fun t => nextIs (exec .rdCr t) fun _ => true) = true := by decide

theorem witness_RdCrReturnsZero :
    nextIs (exec (.wrCr 0xFFFFFFFF#32) State.reset) (fun t => nextIs (exec .rdCr t) fun _ => true) = true := by decide

theorem witness_TransactionsLeaveTheRestUnchanged : nextIs (exec .rdDr midWrite) (fun _ => true) = true ∧
    nextIs (exec (.wrCr 2#32) midWrite) (fun _ => true) = true := by decide

theorem witness_RegisterMapOfTheWindow : State.reset.power = .operational ∧ State.reset.portFree := witness_free

theorem witness_NarrowAndMisalignedAccessesAreErrors : (State.reset.power = .operational ∧ State.reset.portFree) ∧
    byteWrite.size ≠ 0b10#2 ∧ (wordRead 0x1#4).addr.toNat % 4 ≠ 0 ∧ (wordRead 0x4#4).decoded = .legal .rdCr :=
  ⟨witness_free, by decide⟩

theorem witness_IllegalRequestsChangeNothing : (State.reset.power = .operational ∧ State.reset.portFree) ∧
    (wordRead 0x8#4).decoded = .illegal .addr := ⟨witness_free, by decide⟩

theorem witness_LegalTransactionsNeverFail : (State.reset.power = .operational ∧ State.reset.portFree) ∧
    (wordRead 0x0#4).decoded = .legal .rdDr ∧ byteWrite.decoded = .illegal .size := ⟨witness_free, by decide⟩

theorem witness_ValuesThatCarryNoMeaning : (State.reset.power = .operational ∧ State.reset.portFree) ∧
    byteWrite.we = true ∧ byteWrite.decoded = .illegal .size ∧ (wordRead 0x0#4).we = false ∧
    (wordWrite 0x4#4 3#32).decoded = .legal (.wrCr 3#32) := ⟨witness_free, by decide⟩

set_option maxRecDepth 100000 in
theorem witness_SideEffectsAndIdempotency : nextIs (exec .rdDr State.reset) (fun _ => true) = true ∧
    nextIs (exec (.wrDr 1#32) State.reset) (fun t => nextIs (exec (.wrDr 1#32) t) fun u => u.acc != t.acc) = true ∧
    nextIs (exec (.wrCr 1#32) State.reset) (fun _ => true) = true ∧
    nextIs (exec (.wrCr 2#32) State.reset) (fun _ => true) = true := by decide

set_option maxRecDepth 100000 in
/-- ACC changed by a reset, by a write and by a software reset. -/
theorem witness_AccumulatorChangesInThreeWays : (accState 5#32).power = .operational ∧
    nextIs (tick .parallel resetPins (accState 5#32)) (fun t => t.acc != 5#32) = true ∧
    nextIs (tick .parallel (holdPins (wordWrite 0x0#4 0#32)) (accState 5#32)) (fun t => t.acc != 5#32) = true ∧
    nextIs (tick .parallel (holdPins (wordWrite 0x4#4 1#32)) (accState 5#32)) (fun t => t.acc != 5#32) = true := by decide

/-- A legal and an illegal request with the port free, with a serial write outstanding, and before the first reset; and the
other events; the bus accesses stand in the next theorem. -/
theorem witness_StepRunsTheDecodedInstruction :
    State.pending { State.reset with pending := [.request (wordRead 0x0#4)] } = [.request (wordRead 0x0#4)] ∧
    State.reset.power = .operational ∧ State.reset.outstanding = none ∧ (wordRead 0x0#4).decoded = .legal .rdDr ∧
    byteWrite.decoded = .illegal .size ∧ neverReset.power = .unreset ∧
    State.pending { midWrite with pending := [.request (wordRead 0x0#4)] } = [.request (wordRead 0x0#4)] ∧
    midWrite.power = .operational ∧ midWrite.outstanding = some (wordWrite 0x0#4 0x12345678#32) ∧ midWrite.pending = [] ∧
    State.pending { midWrite with pending := [.cycle resetPins, .clockStop, .powerCycle] } =
      [.cycle resetPins, .clockStop, .powerCycle] := by decide

/-- A bus access to the first byte of the window, and one just above it, whatever BASE is. -/
theorem witness_StepRunsTheDecodedInstruction_access :
    (BusAccess.mk false 0b10#2 Config.params.base 0#32).request? Config.params.base = some (wordRead 0x0#4) ∧
    (BusAccess.mk false 0b10#2 (Config.params.base + 16) 0#32).request? Config.params.base = none := by
  simp [BusAccess.request?, windowOffset, Config.windowBytes, Config.addrW, wordRead]

theorem witness_PresentedWordRunsAsDecoded : State.reset.power = .operational ∧ State.reset.outstanding = none ∧
    decodeTableWord 8 0x60 = some (.wrDr 0#32) := by decide

theorem witness_RunsFollowTheTransactionModel : State.reset.power = .operational ∧ State.reset.portFree := witness_free

theorem witness_IdleCyclesChangeNothing : State.reset.power = .operational ∧ State.reset.portFree := witness_free

/-- BASE = 0x50: its first and last byte, and the bytes just outside. -/
theorem witness_BusAccessesReachTheBlockInsideItsWindow : (State.reset.power = .operational ∧ State.reset.portFree) ∧
    (15 < 16 ∧ (BusAccess.mk false 0b10#2 0x5F 0#32).addr = Params.base ⟨.parallel, 5⟩ + 15) ∧
    (BusAccess.mk false 0b10#2 0x4F 0#32).addr < Params.base ⟨.parallel, 5⟩ ∧
    Params.base ⟨.parallel, 5⟩ + 16 ≤ (BusAccess.mk false 0b10#2 0x60 0#32).addr := ⟨witness_free, by decide⟩

theorem witness_HardwareResetSetsTheResetState : resetPins.rst = true := rfl

theorem witness_ResetValues : (0xFFFFFFFF#32).toNat % 2 = 1 := by decide

/-- In the first cycle and in the completing cycle of a serial write. -/
theorem witness_ResetAbandonsTheTransaction : (State.reset.power = .operational ∧ State.reset.portFree) ∧
    resetPins.rst = true ∧ 0 < latency (.serial .xorShift) (wordWrite 0x0#4 1#32) ∧
    31 < latency (.serial .xorShift) (wordWrite 0x0#4 1#32) := ⟨witness_free, by decide⟩

theorem witness_SoftwareResetMatchesHardwareReset : State.reset.portFree ∧ (0xFFFFFFFF#32).toNat % 2 = 1 ∧
    nextIs (exec (.wrCr 0xFFFFFFFF#32) State.reset) (fun _ => true) = true := ⟨witness_free.2, by decide⟩

theorem witness_RequestsBeforeTheFirstResetAreRefused : neverReset.power = .unreset := rfl

/-- Withdrawn, changed and held. -/
theorem witness_ChangedRequestsAreRefused : midWrite.power = .operational ∧
    midWrite.outstanding = some (wordWrite 0x0#4 0x12345678#32) ∧ idlePins.rst = false ∧ idlePins.reqValid = false ∧
    (holdPins (wordRead 0x0#4)).req ≠ wordWrite 0x0#4 0x12345678#32 ∧
    (holdPins (wordWrite 0x0#4 0x12345678#32)).req = wordWrite 0x0#4 0x12345678#32 := by decide

/-- k = 1 and k = 32; and a request that is no WR_DR. -/
theorem witness_SerialWriteShiftsOncePerCycle : (State.reset.power = .operational ∧ State.reset.portFree) ∧
    (wordWrite 0x0#4 1#32).decoded = .legal (.wrDr 1#32) ∧ 1 ≤ 1 ∧ 32 ≤ 32 ∧ (wordRead 0x0#4).decoded = .legal .rdDr :=
  ⟨witness_free, by decide⟩

theorem witness_DatapathsAgree : (State.reset.power = .operational ∧ State.reset.portFree) ∧
    (wordWrite 0x0#4 1#32).decoded = .legal (.wrDr 1#32) := ⟨witness_free, by decide⟩

theorem witness_CycleRunsFollowTheTransactionModel : State.reset.power = .operational ∧ State.reset.portFree := witness_free

theorem witness_Latencies : (State.reset.power = .operational ∧ State.reset.portFree) ∧
    (wordRead 0x8#4).decoded = .illegal .addr ∧ resetPins.rst = true := ⟨witness_free, by decide⟩

set_option maxRecDepth 100000 in
/-- k = 1, where the run gives a next state and so does the whole write. -/
theorem witness_TransactionsWaitForASerialWrite : (State.reset.power = .operational ∧ State.reset.portFree) ∧
    (wordWrite 0x0#4 0x12345678#32).decoded = .legal (.wrDr 0x12345678#32) ∧
    nextIs (tick (.serial .xorShift) (holdPins (wordWrite 0x0#4 0x12345678#32)) State.reset) (· == midWrite) = true ∧
    nextIs (transact (.serial .xorShift) (wordWrite 0x0#4 0x12345678#32) State.reset) (fun _ => true) = true :=
  ⟨witness_free, by decide⟩

/-- With the port free, and with a serial write outstanding. -/
theorem witness_EveryStepKeepsTheInvariant : State.reset.Inv .parallel ∧ midWrite.Inv (.serial .xorShift) ∧
    nextIs (stepWith ⟨.serial .xorShift, 0⟩ midWrite) (fun _ => true) = true :=
  ⟨⟨rfl, rfl, rfl⟩, ⟨by decide, rfl, rfl⟩, by decide⟩

/-- A held cycle of an outstanding write, and a request on a reset block. -/
theorem witness_DutifulStepsNeverStop : midWrite.Inv (.serial .xorShift) ∧
    eventDutiful (.cycle (holdPins (wordWrite 0x0#4 0x12345678#32))) midWrite ∧
    eventDutiful (.request (wordRead 0x0#4)) State.reset ∧ eventDutiful (.cycle resetPins) neverReset ∧
    midWrite.pending = [] :=
  ⟨⟨by decide, rfl, rfl⟩, .inr ⟨fun _ => rfl, fun r h => by cases h; exact ⟨rfl, rfl⟩⟩, rfl, .inl rfl, rfl⟩

/-- Two states that differ in the last response only. -/
theorem witness_FutureDependsOnTheAccumulatorOnly : State.reset.Inv .parallel ∧
    State.Inv .parallel { State.reset with resp := some (.ok 3#32) } ∧
    nextIs (tick .parallel (holdPins (wordRead 0x0#4)) State.reset) (fun _ => true) = true :=
  ⟨⟨rfl, rfl, rfl⟩, ⟨rfl, rfl, rfl⟩, by decide⟩

theorem witness_FramedWordsAreLittleEndian : 3 < 4 ∧ 0 < [0x78#8, 0x56#8, 0x34#8, 0x12#8].length / 4 := by decide

/-- One byte left over with three bytes added, and three left over. -/
theorem witness_ZeroPaddingExtendsTheLastWord : [0x01#8].length % 4 ≠ 0 ∧ 3 ≤ 4 - [0x01#8].length % 4 ∧
    [0x01#8, 0x02#8, 0x03#8].length % 4 ≠ 0 ∧ [0x01#8, 0x02#8, 0x03#8, 0x04#8].length % 4 = 0 := by decide

theorem witness_RejectPolicyFailsOnPartialWords : [0x01#8].length % 4 ≠ 0 ∧ ([] : List Byte).length % 4 = 0 := by decide

theorem witness_ComputeReturnsTheChecksum : (State.reset.power = .operational ∧ State.reset.portFree) ∧
    [0x01#8].length % 4 ≠ 0 ∧ [0x78#8, 0x56#8, 0x34#8, 0x12#8].length % 4 = 0 ∧ State.reset.acc = Config.init :=
  ⟨witness_free, by decide⟩

theorem witness_EmptyBufferGivesInit : State.reset.power = .operational ∧ State.reset.portFree := witness_free

set_option maxRecDepth 100000 in
/-- "abcd" and "dcba" (V-H9, V-H10). -/
theorem witness_ReversingAWordChangesTheChecksum : (State.reset.power = .operational ∧ State.reset.portFree) ∧
    ([] : List Byte).length % 4 = 0 ∧
    (match compute .parallel .zeroPad [0x61#8, 0x62#8, 0x63#8, 0x64#8] State.reset with
      | .next t => t.1 == .ok 0xA62F1C36#32 | _ => false) = true ∧
    (match compute .parallel .zeroPad [0x64#8, 0x63#8, 0x62#8, 0x61#8] State.reset with
      | .next t => t.1 == .ok 0xC2B3CCB4#32 | _ => false) = true := ⟨witness_free, by decide⟩

theorem witness_ResidueIsZero : (State.reset.power = .operational ∧ State.reset.portFree) ∧
    (match compute .parallel .zeroPad [] State.reset with
      | .next t => t.1 == .ok 0xFFFFFFFF#32 | _ => false) = true := ⟨witness_free, by decide⟩

theorem witness_ReadReturnsTheChecksumSinceTheLastReset : (State.reset.power = .operational ∧ State.reset.portFree) ∧
    State.reset.acc = Config.init := ⟨witness_free, rfl⟩

/-- Two instances with windows at 0x50 and 0x60, an access to the second, and a reset of the first. -/
theorem witness_InstancesShareNoState : (State.reset.power = .operational ∧ State.reset.portFree) ∧
    (match platformAccess ⟨false, 0b10#2, 0x60, 0#32⟩
        [⟨⟨.parallel, 5⟩, State.reset⟩, ⟨⟨.parallel, 6⟩, State.reset⟩] with | .next us => us.length == 2 | _ => false) = true ∧
    (match platformAt (.cycle resetPins) 0
        [⟨⟨.parallel, 5⟩, State.reset⟩, ⟨⟨.parallel, 6⟩, State.reset⟩] with | .next us => us.length == 2 | _ => false) = true ∧
    Params.base ⟨.parallel, 5⟩ + 16 ≤ 0x60 := ⟨witness_free, by decide⟩

/-- A whole computation between two others; and another's read between its reset and its word. -/
theorem witness_SeparateComputationsReadTheirOwnChecksum : (State.reset.power = .operational ∧ State.reset.portFree) ∧
    (∀ (xs ys : List MasterRequest) (x : MasterRequest), [⟨⟨0, 0⟩, crcFeed 1#32⟩] = xs ++ x :: ys → x.source = ⟨0, 0⟩ →
      x.req.decoded = .legal .rdDr → ∃ y ∈ ys, y.source = ⟨0, 0⟩ ∧ y.feedsWord = true) ∧
    noOverlap none ([⟨⟨1, 0⟩, crcReset⟩, ⟨⟨1, 0⟩, crcResult⟩] ++
      ⟨⟨0, 0⟩, crcReset⟩ :: ([⟨⟨0, 0⟩, crcFeed 1#32⟩] ++ ⟨⟨0, 0⟩, crcResult⟩ :: [⟨⟨1, 1⟩, crcReset⟩])) = true ∧
    (MasterRequest.mk ⟨1, 0⟩ crcResult).source ≠ ⟨0, 0⟩ ∧
    (MasterRequest.mk ⟨0, 0⟩ (crcFeed 1#32)).feedsWord = true := by
  refine ⟨witness_free, fun xs ys x h => ?_, by decide, by decide, by decide⟩
  have hx : x ∈ [(⟨⟨0, 0⟩, crcFeed 1#32⟩ : MasterRequest)] := by rw [h]; simp
  rw [List.mem_singleton.mp hx]
  exact fun _ hd => absurd hd (by decide)

/-- Literals and offsets at the ends of their ranges and just out of them, and bytes in range. -/
theorem witness_AssemblerExpandsItsStatements : 0xFFFFFFFF < 2 ^ 32 ∧ 0xF < 16 ∧ 2 ^ 32 ≤ 0x100000000 ∧ 16 ≤ 0x10 ∧
    [0x00, 0xFF].all byteLiteralOk = true := by decide

end Sys2Proof.Tests
end

/-! SUPPORT. The state and the transfer in progress: what a transaction writes, where the edges of a serial write end, the
invariant under every event, and what later cycles depend on; from these the statements on the state are settled. -/

namespace Sys2Proof.Machine

open Sys2Proof

variable {s s' t : State} {form : SerialForm} {impl : CrcImpl} {r : Request} {d : Word}

/-! ### Operands -/

theorem resetBit_iff (d : Word) : resetBit d = true ↔ d.toNat % 2 = 1 := by
  unfold resetBit
  rw [← BitVec.getLsbD_eq_getElem, BitVec.getLsbD, Nat.testBit_zero, decide_eq_true_iff]

theorem resetBit_eq_false_iff (d : Word) : resetBit d = false ↔ d.toNat % 2 = 0 := by
  rw [← Bool.not_eq_true, resetBit_iff]; omega

/-- The operand of a WR_DR is the write data taken whole (R47). -/
theorem wdata_of_decoded_wrDr (h : r.decoded = .legal (.wrDr d)) : r.wdata = d := by
  unfold Request.decoded decode at h
  split_ifs at h <;> cases h
  rfl

/-! ### The CRC by the bit-input form (R65) -/

/-- XORing the data in before the step leaves what the bit-input iteration gives, with the data bits still to come. -/
theorem crcStep_xor_data (acc d : Word) : crcStep (acc ^^^ d) = lfsrStep acc d[31] ^^^ (d <<< 1) := by
  unfold crcStep lfsrStep
  rw [BitVec.getElem_xor, BitVec.shiftLeft_xor_distrib]
  split
  · ac_rfl
  · rfl

theorem lfsrSteps_succ (n : Nat) (acc d : Word) :
    lfsrSteps (n + 1) acc d = lfsrSteps n (lfsrStep acc d[31]) (d <<< 1) := rfl

/-- Before the data bits still to come are XORed in, the bit-input form stands where the step form does. -/
theorem lfsrSteps_eq (n : Nat) (acc d : Word) : lfsrSteps n acc d = crcSteps n (acc ^^^ d) ^^^ (d <<< n) := by
  induction n generalizing acc d with
  | zero => simp [lfsrSteps]
  | succ n ih =>
    rw [lfsrSteps_succ, ih, crcSteps_succ, crcStep_xor_data, ← BitVec.shiftLeft_add, Nat.add_comm 1 n]

theorem lfsrUpdate_eq_crcUpdate (acc d : Word) : lfsrUpdate acc d = crcUpdate acc d := by
  rw [lfsrUpdate, lfsrSteps_eq, BitVec.shiftLeft_eq_zero (by omega), BitVec.xor_zero, crcUpdate]

/-! ### What a transaction changes (R71, R73, R75, R77) -/

/-- Every arm of exec writes ACC and the response and nothing else. -/
theorem exec_writes_acc_and_resp (i : Instr) (s : State) :
    ∃ a v, exec i s = .next { s with acc := a, resp := some (.ok v) } := by
  obtain ⟨d, -, h⟩ | ⟨-, h⟩ | ⟨d, -, h⟩ | ⟨-, h⟩ := exec_cases i s
  · exact ⟨_, _, h⟩
  · exact ⟨_, _, h⟩
  · refine ⟨(writeCR d s).acc, 0#32, h.trans ?_⟩
    unfold writeCR
    split <;> rfl
  · exact ⟨_, _, h⟩

/-- The arms that leave ACC: the reads, and a CR write with RESET = 0. -/
theorem exec_keeps_acc {i : Instr} (hi : i = .rdDr ∨ i = .rdCr ∨ ∃ d, i = .wrCr d ∧ d.toNat % 2 = 0)
    (h : exec i s = .next t) : t.acc = s.acc := by
  obtain rfl | rfl | ⟨d, rfl, hd⟩ := hi
  · cases h; rfl
  · cases h; rfl
  · cases h
    simp [(resetBit_eq_false_iff d).mpr hd]

/-- What a CR write with RESET = 1 leaves in ACC (R75). -/
theorem writeCR_acc_of_odd (s : State) (hd : d.toNat % 2 = 1) : (writeCR d s).acc = Config.init := by
  simp [(resetBit_iff d).mpr hd]

/-- The arms that change ACC: a DR write, and a CR write with RESET = 1 (R72). -/
theorem exec_changes_acc {i : Instr} (h : exec i s = .next t) (hne : t.acc ≠ s.acc) :
    (∃ d, i = .wrDr d) ∨ ∃ d, i = .wrCr d ∧ d.toNat % 2 = 1 ∧ t.acc = Config.init := by
  cases i with
  | wrDr d => exact .inl ⟨d, rfl⟩
  | rdDr => exact absurd (exec_keeps_acc (.inl rfl) h) hne
  | wrCr d =>
    obtain hd | hd := Nat.mod_two_eq_zero_or_one d.toNat
    · exact absurd (exec_keeps_acc (.inr (.inr ⟨d, rfl, hd⟩)) h) hne
    · cases h
      exact .inr ⟨d, rfl, hd, writeCR_acc_of_odd s hd⟩
  | rdCr => exact absurd (exec_keeps_acc (.inr (.inl rfl)) h) hne

/-- One transaction on a free port writes ACC and the response and nothing else. -/
theorem transact_writes_acc_and_resp (impl : CrcImpl) (r : Request) (hp : s.power = .operational)
    (ho : s.outstanding = none) : ∃ a v, transact impl r s = .next { s with acc := a, resp := some v } := by
  rw [transact_free impl r hp ho]
  cases r.decoded with
  | illegal c => exact ⟨_, _, rfl⟩
  | legal i =>
    obtain ⟨a, v, h⟩ := exec_writes_acc_and_resp i s
    exact ⟨a, _, h⟩

/-! ### One edge of CLK, by its input pins -/

theorem tick_reset (impl : CrcImpl) {p : Pins} (hr : p.rst = true) (s : State) :
    tick impl p s = .next (hardReset s) := by
  simp [tick, hr]

theorem tick_idle (impl : CrcImpl) {p : Pins} (hr : p.rst = false) (hv : p.reqValid = false)
    (hp : s.power = .operational) (ho : s.outstanding = none) : tick impl p s = .next (idle s) := by
  simp [tick, tickRunning, hr, hv, hp, ho]

/-- The request on the pins is served when the port is free or the request is the outstanding one (R26, R27). -/
theorem tick_serve (impl : CrcImpl) {p : Pins} (hr : p.rst = false) (hv : p.reqValid = true)
    (hp : s.power = .operational) (ho : s.outstanding = none ∨ s.outstanding = some p.req) :
    tick impl p s = serveCycle impl p.req s := by
  obtain ho | ho := ho <;> simp [tick, tickRunning, hr, hv, hp, ho]

theorem serveCycle_of_illegal (impl : CrcImpl) {c : Cause} (h : r.decoded = .illegal c) (s : State) :
    serveCycle impl r s = .next (busError c s) := by
  simp only [serveCycle, h]

theorem serveCycle_of_wrDr (impl : CrcImpl) (h : r.decoded = .legal (.wrDr d)) (s : State) :
    serveCycle impl r s = .next (wrDrEdge impl r d s) := by
  simp only [serveCycle, h]

/-- A legal request other than a WR_DR is served by its whole meaning. -/
theorem serveCycle_of_legal (impl : CrcImpl) {i : Instr} (h : r.decoded = .legal i) (hi : ∀ d, i ≠ .wrDr d)
    (s : State) : serveCycle impl r s = exec i s := by
  cases i with
  | wrDr d => exact absurd rfl (hi d)
  | rdDr => simp only [serveCycle, h]
  | wrCr d => simp only [serveCycle, h]
  | rdCr => simp only [serveCycle, h]

/-! ### A serial write in progress (R14, R63, R65) -/

/-- A serial WR_DR with data `d` is outstanding, presented by the request `r`. -/
structure State.Writing (form : SerialForm) (r : Request) (d : Word) (s : State) : Prop where
  power : s.power = .operational
  outstanding : s.outstanding = some r
  decoded : r.decoded = .legal (.wrDr d)
  shifting : s.shifting form d

theorem State.Writing.shiftCnt_ne_zero (h : s.Writing form r d) : s.shiftCnt ≠ 0 := h.shifting.1

theorem State.Writing.resp_eq_none (h : s.Writing form r d) : s.resp = none := h.shifting.2.1

/-- ACC once the shifts that remain of a serial write are done. -/
def serialAccAtEnd (form : SerialForm) (s : State) : Word :=
  match form with
  | .xorShift => crcSteps s.shiftCnt.val s.acc
  | .bitInput => lfsrSteps s.shiftCnt.val s.acc s.dataShift

/-- The state in which an outstanding serial write ends. -/
def serialDone (form : SerialForm) (s : State) : State :=
  { s with
    acc := serialAccAtEnd form s, shiftCnt := 0, dataShift := 0#32, outstanding := none,
    resp := some (.ok 0x00000000#32) }

theorem serialDone_portFree (form : SerialForm) (s : State) : (serialDone form s).portFree := ⟨rfl, rfl, rfl⟩

theorem serialShiftCnt_val (h : s.shiftCnt ≠ 0) : (serialShiftCnt s).val = s.shiftCnt.val - 1 := by
  rw [serialShiftCnt, if_neg h, Fin.val_sub_one_of_ne_zero h]

theorem serialReady_eq_false (h : s.shiftCnt ≠ 1) : serialReady s = false := by
  simpa [serialReady] using h

/-- The first edge of a serial write begins the shifting. -/
theorem serialEdge_first_writing (hp : s.power = .operational) (hf : s.portFree) (hd : r.decoded = .legal (.wrDr d)) :
    (serialEdge form r d s).Writing form r d := by
  obtain ⟨-, hc, hs⟩ := hf
  have hready : serialReady s = false := serialReady_eq_false (by rw [hc]; decide)
  refine ⟨hp, by simp [hready], hd, ?_⟩
  cases form with
  | xorShift => exact ⟨by simp [serialShiftCnt, hc], by simp [hready], hs⟩
  | bitInput => exact ⟨by simp [serialShiftCnt, hc], by simp [hready], by simp [serialDataShift, serialShiftCnt, hc]⟩

/-- Each further edge but the last goes on shifting. -/
theorem State.Writing.serialEdge_writing (h : s.Writing form r d) (h1 : s.shiftCnt ≠ 1) :
    (serialEdge form r d s).Writing form r d := by
  obtain ⟨hp, -, hd, h0, -, hs⟩ := h
  have hready := serialReady_eq_false h1
  have hv := serialShiftCnt_val h0
  have hlt := s.shiftCnt.isLt
  have hne : s.shiftCnt.val ≠ 0 := fun e => h0 (Fin.ext e)
  have hne1 : s.shiftCnt.val ≠ 1 := fun e => h1 (Fin.ext e)
  have hc : serialShiftCnt s ≠ 0 := fun e => by rw [e, Fin.val_zero] at hv; omega
  refine ⟨hp, by simp [hready], hd, hc, by simp [hready], ?_⟩
  cases form with
  | xorShift => exact hs
  | bitInput =>
    simp only [serialEdge_dataShift, serialDataShift, if_neg h0, serialEdge_shiftCnt, hv]
    rw [show s.dataShift = _ from hs, ← BitVec.shiftLeft_add]
    congr 1
    omega

/-- The last edge ends the write. -/
theorem State.Writing.serialEdge_last (h : s.Writing form r d) (h1 : s.shiftCnt = 1) :
    serialEdge form r d s = serialDone form s := by
  have hs := h.shifting.2.2
  have hready : serialReady s = true := by simp [serialReady, h1]
  have hcnt : serialShiftCnt s = 0 := by simp [serialShiftCnt, h1]
  have hacc : serialAcc form d s = serialAccAtEnd form s := by
    cases form with
    | xorShift => simp [serialAcc, serialAccAtEnd, h1, crcSteps]
    | bitInput => simp [serialAcc, serialAccAtEnd, h1, lfsrSteps]
  have hdata : serialDataShift form d s = 0#32 := by
    cases form with
    | xorShift => exact hs
    | bitInput =>
      rw [serialDataShift, if_neg h.shiftCnt_ne_zero, show s.dataShift = _ from hs, h1, ← BitVec.shiftLeft_add]
      exact BitVec.shiftLeft_eq_zero (by decide)
  simp only [serialEdge, serialDone, hready, hcnt, hacc, hdata, if_true]

/-- An edge of the shifting does not change where the write ends. -/
theorem serialDone_serialEdge (h0 : s.shiftCnt ≠ 0) : serialDone form (serialEdge form r d s) = serialDone form s := by
  obtain ⟨n, hn⟩ : ∃ n, s.shiftCnt.val = n + 1 := Nat.exists_eq_succ_of_ne_zero fun e => h0 (Fin.ext e)
  have hv : (serialShiftCnt s).val = n := by rw [serialShiftCnt_val h0, hn, Nat.add_sub_cancel]
  have hacc : serialAccAtEnd form (serialEdge form r d s) = serialAccAtEnd form s := by
    cases form with
    | xorShift => simp [serialAccAtEnd, serialAcc, hv, hn, h0, crcSteps_succ]
    | bitInput => simp [serialAccAtEnd, serialAcc, serialDataShift, hv, hn, h0, lfsrSteps_succ]
  rw [serialDone, hacc]
  rfl

/-- A whole serial write ends in the state of its transaction-level meaning (R64). -/
theorem serialDone_first_edge (hf : s.portFree) (form : SerialForm) (r : Request) (d : Word) :
    serialDone form (serialEdge form r d s) = respondOk 0x00000000#32 (writeDR d s) := by
  obtain ⟨ho, hc, hs⟩ := hf
  have hacc : serialAccAtEnd form (serialEdge form r d s) = crcUpdate s.acc d := by
    cases form with
    | xorShift => simp [serialAccAtEnd, serialAcc, serialShiftCnt, hc, crcUpdate, crcSteps_succ 31]
    | bitInput =>
      rw [← lfsrUpdate_eq_crcUpdate]
      simp [serialAccAtEnd, serialAcc, serialDataShift, serialShiftCnt, hc, lfsrUpdate, lfsrSteps_succ 31]
  rw [serialDone, hacc]
  simp only [respondOk, writeDR, serialEdge, ho, hc, hs]

/-- The host holding its request brings an outstanding serial write to its end. -/
theorem State.Writing.settle_eq (h : s.Writing form r d) : settle (.serial form) s = serialDone form s := by
  unfold settle
  generalize hn : s.shiftCnt.val = n
  induction n generalizing s with
  | zero => exact absurd (Fin.ext hn) h.shiftCnt_ne_zero
  | succ n ih =>
    have h0 := h.shiftCnt_ne_zero
    rw [holdUntilDone, h.outstanding]
    simp only [wrDrEdge, wdata_of_decoded_wrDr h.decoded]
    by_cases h1 : s.shiftCnt = 1
    · rw [h.serialEdge_last h1, holdUntilDone_free _ _ rfl]
    · rw [ih (h.serialEdge_writing h1) (by rw [serialEdge_shiftCnt, serialShiftCnt_val h0]; omega),
        serialDone_serialEdge h0]

/-- The edge of one held cycle of an outstanding serial write. -/
theorem State.Writing.tick_eq (h : s.Writing form r d) :
    tick (.serial form) (holdPins r) s = .next (serialEdge form r d s) := by
  rw [tick_serve _ rfl rfl h.power (.inr h.outstanding), show (holdPins r).req = r from rfl,
    serveCycle_of_wrDr _ h.decoded]
  rfl

/-- The held cycles that remain of a serial write respond in the last one only, and end where the write ends. -/
theorem State.Writing.runCycles_eq {n : Nat} (h : s.Writing form r d) (hn : s.shiftCnt.val = n + 1) :
    runCycles (.serial form) (List.replicate (n + 1) (holdPins r)) s =
      .next (serialDone form s, List.replicate n none ++ [some (.ok 0x00000000#32)]) := by
  induction n generalizing s with
  | zero =>
    rw [List.replicate_succ, runCycles, h.tick_eq, h.serialEdge_last (Fin.ext hn)]
    rfl
  | succ n ih =>
    have h0 := h.shiftCnt_ne_zero
    have h1 : s.shiftCnt ≠ 1 := fun e => by simp [e] at hn
    have hw := h.serialEdge_writing h1
    rw [List.replicate_succ, runCycles, h.tick_eq, andThen_next,
      ih hw (by rw [serialEdge_shiftCnt, serialShiftCnt_val h0]; omega), serialDone_serialEdge h0, hw.resp_eq_none]
    rfl

/-! ### The cycles of one transaction (R64, R125) -/

theorem latency_eq_one_or_serial_write (impl : CrcImpl) (r : Request) :
    latency impl r = 1 ∨ ∃ form d, impl = .serial form ∧ r.decoded = .legal (.wrDr d) := by
  unfold latency
  cases r.decoded with
  | illegal c => exact .inl rfl
  | legal i =>
    cases i with
    | wrDr d =>
      cases impl with
      | parallel => exact .inl rfl
      | serial form => exact .inr ⟨form, d, rfl, rfl⟩
    | rdDr => exact .inl rfl
    | wrCr d => exact .inl rfl
    | rdCr => exact .inl rfl

theorem latency_serial_write (form : SerialForm) (hd : r.decoded = .legal (.wrDr d)) : latency (.serial form) r = 32 := by
  simp only [latency, hd, Config.serialCycles]

/-- A request that takes one cycle is served by its whole transaction. -/
theorem serveCycle_eq_transact (hp : s.power = .operational) (ho : s.outstanding = none) (hl : latency impl r = 1) :
    serveCycle impl r s = transact impl r s := by
  rw [transact_free impl r hp ho]
  cases hd : r.decoded with
  | illegal c => exact serveCycle_of_illegal impl hd s
  | legal i =>
    by_cases hi : ∃ d, i = .wrDr d
    · obtain ⟨d, rfl⟩ := hi
      cases impl with
      | parallel => rw [serveCycle_of_wrDr _ hd]; simp [wrDrEdge, exec, execWrDr, writeDR, ho]
      | serial form => simp [latency_serial_write form hd] at hl
    · exact serveCycle_of_legal impl hd (fun d e => hi ⟨d, e⟩) s

theorem transact_wrDr (impl : CrcImpl) (hp : s.power = .operational) (ho : s.outstanding = none)
    (hd : r.decoded = .legal (.wrDr d)) : transact impl r s = .next (respondOk 0x00000000#32 (writeDR d s)) := by
  rw [transact_free impl r hp ho, hd]
  rfl

/-- The cycles of a serial write on a free port: 31 wait states, and the response in the 32nd. -/
theorem runCycles_serial_write (form : SerialForm) (hp : s.power = .operational) (hf : s.portFree)
    (hd : r.decoded = .legal (.wrDr d)) :
    runCycles (.serial form) (List.replicate 32 (holdPins r)) s =
      .next (respondOk 0x00000000#32 (writeDR d s), List.replicate 31 none ++ [some (.ok 0x00000000#32)]) := by
  have hw : (serialEdge form r d s).Writing form r d := serialEdge_first_writing hp hf hd
  have htick : tick (.serial form) (holdPins r) s = .next (serialEdge form r d s) := by
    rw [tick_serve _ rfl rfl hp (.inl hf.1)]
    exact serveCycle_of_wrDr _ hd s
  have hcnt : (serialEdge form r d s).shiftCnt.val = 30 + 1 := by simp [serialShiftCnt, hf.2.1]
  rw [List.replicate_succ, runCycles, htick, andThen_next, hw.runCycles_eq hcnt, serialDone_first_edge hf,
    hw.resp_eq_none]
  rfl

/-- R64: the held cycles of a transaction that answers `t` with the response `v` end in `t`, and only the last responds. -/
theorem runCycles_transactionPins {v : Resp} (hp : s.power = .operational) (hf : s.portFree)
    (ht : transact impl r s = .next t) (hv : t.resp = some v) :
    runCycles impl (transactionPins impl r) s = .next (t, List.replicate (latency impl r - 1) none ++ [some v]) := by
  unfold transactionPins
  obtain hl | ⟨form, d, rfl, hd⟩ := latency_eq_one_or_serial_write impl r
  · have htick : tick impl (holdPins r) s = .next t := by
      rw [tick_serve _ rfl rfl hp (.inl hf.1), ← ht]
      exact serveCycle_eq_transact hp hf.1 hl
    simp [hl, runCycles, htick, hv]
  · rw [transact_wrDr _ hp hf.1 hd] at ht
    cases ht
    cases hv
    rw [latency_serial_write form hd]
    exact runCycles_serial_write form hp hf hd

/-! ### The invariant (R14, R20, R26, R118, R128) -/

/-- The invariant in its three cases: before the first reset, with the port free, and during a serial write. -/
theorem State.inv_iff (impl : CrcImpl) (s : State) :
    s.Inv impl ↔
      (s.power = .unreset ∧ s.outstanding = none ∧ s.resp = none) ∨
      (s.power = .operational ∧ s.portFree) ∨
      ∃ form r d, impl = .serial form ∧ s.Writing form r d := by
  constructor
  · intro h
    unfold State.Inv at h
    cases hp : s.power with
    | unreset => exact .inl ⟨rfl, by simpa only [hp] using h⟩
    | operational =>
      cases ho : s.outstanding with
      | none => exact .inr (.inl ⟨rfl, by simpa only [hp, ho] using h⟩)
      | some r =>
        simp only [hp, ho] at h
        unfold State.outstandingOk at h
        split at h
        · exact h.elim
        · next form =>
          split at h
          · exact h.elim
          · next d hd => exact .inr (.inr ⟨form, r, d, rfl, hp, ho, hd, h⟩)
          · exact h.elim
          · exact h.elim
          · exact h.elim
  · rintro (⟨hp, h⟩ | ⟨hp, h⟩ | ⟨form, r, d, rfl, hp, ho, hd, h⟩)
    · simpa only [State.Inv, hp] using h
    · simpa only [State.Inv, hp, h.1] using h
    · simpa only [State.Inv, hp, ho, State.outstandingOk, hd] using h

theorem inv_of_unreset (impl : CrcImpl) (hp : s.power = .unreset) (ho : s.outstanding = none) (hr : s.resp = none) :
    s.Inv impl :=
  (State.inv_iff impl s).mpr (.inl ⟨hp, ho, hr⟩)

theorem inv_of_portFree (impl : CrcImpl) (hp : s.power = .operational) (hf : s.portFree) : s.Inv impl :=
  (State.inv_iff impl s).mpr (.inr (.inl ⟨hp, hf⟩))

theorem State.Writing.inv (h : s.Writing form r d) : s.Inv (.serial form) :=
  (State.inv_iff _ s).mpr (.inr (.inr ⟨form, r, d, rfl, h⟩))

theorem hardReset_inv (impl : CrcImpl) (s : State) : (hardReset s).Inv impl :=
  inv_of_portFree impl rfl ⟨rfl, rfl, rfl⟩

theorem unspecified_inv (impl : CrcImpl) (s : State) : (unspecified s).Inv impl := inv_of_unreset impl rfl rfl rfl

/-- A reset block is either free at its port or in a serial write. -/
theorem State.Inv.portFree_or_writing (h : s.Inv impl) (hp : s.power = .operational) :
    s.portFree ∨ ∃ form r d, impl = .serial form ∧ s.Writing form r d := by
  obtain ⟨hu, -⟩ | ⟨-, hf⟩ | hw := (State.inv_iff impl s).mp h
  · rw [hp] at hu; cases hu
  · exact .inl hf
  · exact .inr hw

theorem State.Inv.portFree (h : s.Inv impl) (hp : s.power = .operational) (ho : s.outstanding = none) : s.portFree := by
  obtain hf | ⟨form, r, d, -, hw⟩ := h.portFree_or_writing hp
  · exact hf
  · rw [hw.outstanding] at ho; cases ho

theorem idle_inv (h : s.Inv impl) : (idle s).Inv impl := by
  obtain ⟨hp, ho, -⟩ | ⟨hp, hf⟩ | ⟨form, r, d, rfl, hp, ho, hd, hc, -, hs⟩ := (State.inv_iff impl s).mp h
  · exact inv_of_unreset impl hp ho rfl
  · exact inv_of_portFree impl hp hf
  · exact State.Writing.inv ⟨hp, ho, hd, hc, rfl, hs⟩

/-- Every edge of an outstanding serial write keeps the invariant. -/
theorem State.Writing.serialEdge_inv (h : s.Writing form r d) : (serialEdge form r d s).Inv (.serial form) := by
  by_cases h1 : s.shiftCnt = 1
  · rw [h.serialEdge_last h1]
    exact inv_of_portFree _ h.power (serialDone_portFree form s)
  · exact (h.serialEdge_writing h1).inv

/-- A request served for one cycle on a free port keeps the invariant. -/
theorem serveCycle_keeps_inv_of_portFree (hp : s.power = .operational) (hf : s.portFree)
    (h : serveCycle impl r s = .next t) : t.Inv impl := by
  obtain hl | ⟨form, d, rfl, hd⟩ := latency_eq_one_or_serial_write impl r
  · obtain ⟨a, v, ht⟩ := transact_writes_acc_and_resp impl r hp hf.1
    rw [serveCycle_eq_transact hp hf.1 hl, ht] at h
    cases h
    exact inv_of_portFree impl hp hf
  · rw [serveCycle_of_wrDr _ hd] at h
    cases h
    exact (serialEdge_first_writing hp hf hd).inv

/-- The outstanding request served for one cycle keeps the invariant. -/
theorem State.Writing.serveCycle_keeps_inv (hw : s.Writing form r d) (h : serveCycle (.serial form) r s = .next t) :
    t.Inv (.serial form) := by
  rw [serveCycle_of_wrDr _ hw.decoded] at h
  cases h
  exact hw.serialEdge_inv

theorem tick_keeps_inv {p : Pins} (hi : s.Inv impl) (h : tick impl p s = .next t) : t.Inv impl := by
  obtain ⟨-, rfl⟩ | ⟨-, -, -, rfl⟩ | ⟨-, -, -, -, rfl⟩ | ⟨-, hp, -, ho, h⟩ := tick_cases h
  · exact hardReset_inv impl s
  · exact unspecified_inv impl s
  · exact idle_inv hi
  · obtain hf | ⟨form, r, d, rfl, hw⟩ := hi.portFree_or_writing hp
    · exact serveCycle_keeps_inv_of_portFree hp hf h
    · have hr : p.req = r := by simpa [hw.outstanding, eq_comm] using ho
      rw [hr] at h
      exact hw.serveCycle_keeps_inv h

/-- When the outstanding write is done, the port is free. -/
theorem settle_portFree (hi : s.Inv impl) (hp : s.power = .operational) :
    (settle impl s).power = .operational ∧ (settle impl s).portFree := by
  obtain hf | ⟨form, r, d, rfl, hw⟩ := hi.portFree_or_writing hp
  · rw [settle_free impl hf.1]
    exact ⟨hp, hf⟩
  · rw [hw.settle_eq]
    exact ⟨hp, serialDone_portFree form s⟩

/-- A transaction is the one that begins when the port is free (R27). -/
theorem transact_settle (hi : s.Inv impl) (hp : s.power = .operational) (r : Request) :
    transact impl r s = transact impl r (settle impl s) := by
  obtain ⟨hp', hf⟩ := settle_portFree hi hp
  rw [transact_free impl r hp' hf.1]
  cases hd : r.decoded <;> simp only [transact, hp, hd]

theorem transact_keeps_inv (hi : s.Inv impl) (h : transact impl r s = .next t) : t.Inv impl := by
  cases hp : s.power with
  | unreset => simp [transact, hp] at h
  | operational =>
    obtain ⟨hp', hf⟩ := settle_portFree hi hp
    obtain ⟨a, v, ht⟩ := transact_writes_acc_and_resp impl r hp' hf.1
    rw [transact_settle hi hp, ht] at h
    cases h
    exact inv_of_portFree impl hp' hf

theorem unaddressed_keeps_inv (hi : s.Inv impl) (h : unaddressed impl s = .next t) : t.Inv impl := by
  unfold unaddressed at h
  cases hp : s.power with
  | unreset =>
    simp only [hp] at h
    cases h
    exact unspecified_inv impl s
  | operational =>
    simp only [hp] at h
    cases h
    obtain ⟨hp', hf⟩ := settle_portFree hi hp
    exact idle_inv (inv_of_portFree impl hp' hf)

/-- The invariant does not speak of what is queued. -/
theorem inv_pending (q : List HostEvent) : State.Inv impl { s with pending := q } ↔ s.Inv impl := Iff.rfl

theorem applyEvent_keeps_inv {p : Params} {ev : HostEvent} (hi : s.Inv p.crcImpl) (h : applyEvent p ev s = .next t) :
    t.Inv p.crcImpl := by
  cases ev with
  | request r => exact transact_keeps_inv hi h
  | access a =>
    simp only [applyEvent] at h
    split at h
    · exact transact_keeps_inv hi h
    · exact unaddressed_keeps_inv hi h
  | cycle pins => exact tick_keeps_inv hi h
  | clockStop =>
    cases h
    exact idle_inv hi
  | powerCycle =>
    cases h
    exact unspecified_inv _ s

theorem stepWith_keeps_inv {p : Params} (hi : s.Inv p.crcImpl) (h : stepWith p s = .next t) : t.Inv p.crcImpl := by
  unfold stepWith at h
  split at h
  · exact tick_keeps_inv hi h
  · next ev rest hq => exact applyEvent_keeps_inv ((inv_pending rest).mpr hi) h

/-! ### Noninterference (R128) -/

/-- The two states agree on all that a reset block's later cycles look at. -/
structure SameBlock (s s' : State) : Prop where
  acc : s'.acc = s.acc
  shiftCnt : s'.shiftCnt = s.shiftCnt
  dataShift : s'.dataShift = s.dataShift
  outstanding : s'.outstanding = s.outstanding
  power : s.power = .operational
  power' : s'.power = .operational

/-- Between transactions, ACC is all that a reset block's later cycles look at. -/
theorem SameBlock.of_portFree (hf : s.portFree) (hf' : s'.portFree) (hp : s.power = .operational)
    (hp' : s'.power = .operational) (ha : s.acc = s'.acc) : SameBlock s s' := by
  obtain ⟨ho, hc, hd⟩ := hf
  obtain ⟨ho', hc', hd'⟩ := hf'
  exact ⟨ha.symm, hc'.trans hc.symm, hd'.trans hd.symm, ho'.trans ho.symm, hp, hp'⟩

/-- Stated by the field lemmas: a proof by `rfl` would have the kernel compare the two `crcUpdate`s. -/
theorem SameBlock.respondOk_writeDR (h : SameBlock s s') (d : Word) :
    SameBlock (respondOk 0x00000000#32 (writeDR d s)) (respondOk 0x00000000#32 (writeDR d s')) where
  acc := by simp only [respondOk_acc, writeDR_acc, h.acc]
  shiftCnt := by simp only [respondOk_shiftCnt, writeDR_shiftCnt, h.shiftCnt]
  dataShift := by simp only [respondOk_dataShift, writeDR_dataShift, h.dataShift]
  outstanding := by simp only [respondOk_outstanding, writeDR_outstanding, h.outstanding]
  power := by simp only [respondOk_power, writeDR_power, h.power]
  power' := by simp only [respondOk_power, writeDR_power, h.power']

theorem SameBlock.wrDrEdge_congr (h : SameBlock s s') (impl : CrcImpl) (r : Request) (d : Word) :
    SameBlock (wrDrEdge impl r d s) (wrDrEdge impl r d s') ∧
      (wrDrEdge impl r d s').resp = (wrDrEdge impl r d s).resp := by
  obtain ⟨ha, hc, hd, ho, hp, hp'⟩ := h
  cases impl with
  | parallel =>
    have hfree : SameBlock { s with outstanding := none } { s' with outstanding := none } :=
      ⟨ha, hc, hd, rfl, hp, hp'⟩
    exact ⟨hfree.respondOk_writeDR d, by simp only [wrDrEdge, respondOk_resp]⟩
  | serial form =>
    have hready : serialReady s' = serialReady s := by simp only [serialReady, hc]
    refine ⟨⟨?_, ?_, ?_, ?_, hp, hp'⟩, ?_⟩
    · cases form <;> simp only [wrDrEdge, serialEdge_acc, serialAcc, ha, hc, hd]
    · simp only [wrDrEdge, serialEdge_shiftCnt, serialShiftCnt, hc]
    · cases form <;> simp only [wrDrEdge, serialEdge_dataShift, serialDataShift, hc, hd]
    · simp only [wrDrEdge, serialEdge_outstanding, hready]
    · simp only [wrDrEdge, serialEdge_resp, hready]

theorem SameBlock.exec_congr {i : Instr} (h : SameBlock s s') (hs : exec i s = .next t) :
    ∃ t', exec i s' = .next t' ∧ SameBlock t t' ∧ t'.resp = t.resp := by
  obtain ⟨ha, hc, hd, ho, hp, hp'⟩ := h
  cases i with
  | wrDr d =>
    cases hs
    exact ⟨_, rfl, .respondOk_writeDR ⟨ha, hc, hd, ho, hp, hp'⟩ d, by simp only [respondOk_resp]⟩
  | rdDr =>
    cases hs
    exact ⟨_, rfl, ⟨ha, hc, hd, ho, hp, hp'⟩, by simp only [respondOk_resp, readDR, ha]⟩
  | wrCr d =>
    cases hs
    exact ⟨_, rfl, ⟨by simp [ha], by simpa, by simpa, by simpa, by simpa, by simpa⟩, rfl⟩
  | rdCr =>
    cases hs
    exact ⟨_, rfl, ⟨ha, hc, hd, ho, hp, hp'⟩, rfl⟩

theorem SameBlock.serveCycle_congr (h : SameBlock s s') (hs : serveCycle impl r s = .next t) :
    ∃ t', serveCycle impl r s' = .next t' ∧ SameBlock t t' ∧ t'.resp = t.resp := by
  cases hdec : r.decoded with
  | illegal c =>
    rw [serveCycle_of_illegal impl hdec] at hs ⊢
    cases hs
    exact ⟨_, rfl, ⟨h.acc, h.shiftCnt, h.dataShift, h.outstanding, h.power, h.power'⟩, rfl⟩
  | legal i =>
    by_cases hi : ∃ d, i = .wrDr d
    · obtain ⟨d, rfl⟩ := hi
      rw [serveCycle_of_wrDr impl hdec] at hs ⊢
      cases hs
      exact ⟨_, rfl, h.wrDrEdge_congr impl r d⟩
    · rw [serveCycle_of_legal impl hdec fun d e => hi ⟨d, e⟩] at hs ⊢
      exact h.exec_congr hs

theorem SameBlock.tick_congr {p : Pins} (h : SameBlock s s') (hs : tick impl p s = .next t) :
    ∃ t', tick impl p s' = .next t' ∧ SameBlock t t' ∧ t'.resp = t.resp := by
  obtain ⟨hr, rfl⟩ | ⟨-, hu, -⟩ | ⟨hr, -, ho, hv, rfl⟩ | ⟨hr, -, hv, ho, hs⟩ := tick_cases hs
  · exact ⟨_, tick_reset impl hr s', ⟨rfl, rfl, rfl, rfl, rfl, rfl⟩, rfl⟩
  · rw [h.power] at hu; cases hu
  · exact ⟨_, tick_idle impl hr hv h.power' (h.outstanding.trans ho),
      ⟨h.acc, h.shiftCnt, h.dataShift, h.outstanding, h.power, h.power'⟩, rfl⟩
  · rw [tick_serve impl hr hv h.power' (h.outstanding ▸ ho)]
    exact h.serveCycle_congr hs

theorem SameBlock.runCycles_congr {ps : List Pins} {out : List (Option Resp)} (h : SameBlock s s')
    (hs : runCycles impl ps s = .next (t, out)) : ∃ t', runCycles impl ps s' = .next (t', out) ∧ SameBlock t t' := by
  induction ps generalizing s s' t out with
  | nil =>
    cases hs
    exact ⟨s', rfl, h⟩
  | cons p ps ih =>
    obtain ⟨u, hu, hs⟩ := andThen_eq_next hs
    obtain ⟨⟨w, ws⟩, hw, hs⟩ := andThen_eq_next hs
    cases hs
    obtain ⟨u', hu', hb, hresp⟩ := h.tick_congr hu
    obtain ⟨w', hw', hb⟩ := ih hb hw
    exact ⟨w', by rw [runCycles, hu', andThen_next, hw', andThen_next, hresp], hb⟩

/-! ### The obligations -/

/-- Settles O40: a transaction that takes one cycle is its own meaning, and the 32 edges of a serial write end in
`crcUpdate`. -/
theorem datapathsAgree : Obligations.DatapathsAgree := by
  intro impl r s hp hf
  obtain ⟨a, v, ht⟩ := transact_writes_acc_and_resp impl r hp hf.1
  refine ⟨_, v, ht, rfl, hp, hf, runCycles_transactionPins hp hf ht rfl, fun d hd => ?_⟩
  rw [transact_wrDr impl hp hf.1 hd] at ht
  cases ht
  rfl

/-- Settles O45: every event keeps the invariant, whichever of its three cases holds before it. -/
theorem everyStepKeepsTheInvariant : Obligations.EveryStepKeepsTheInvariant :=
  ⟨fun _ _ _ hi h => stepWith_keeps_inv hi h, fun _ _ hi h => stepWith_keeps_inv (p := Config.params) hi h⟩

/-- Settles O19: every arm writes ACC and the response and nothing else. -/
theorem transactionsLeaveTheRestUnchanged : Obligations.TransactionsLeaveTheRestUnchanged := by
  intro i s t h
  have hacc := fun hi => exec_keeps_acc hi h
  obtain ⟨a, v, ht⟩ := exec_writes_acc_and_resp i s
  rw [ht] at h
  cases h
  exact ⟨rfl, rfl, rfl, rfl, rfl, rfl, hacc, rfl, rfl, rfl⟩

/-- Settles O26, by what one edge of CLK can do. -/
theorem accumulatorChangesInThreeWays : Obligations.AccumulatorChangesInThreeWays := by
  intro impl p s t hp h hne
  obtain ⟨hr, rfl⟩ | ⟨-, hu, -⟩ | ⟨-, -, -, -, rfl⟩ | ⟨hr, -, hv, -, h⟩ := tick_cases h
  · exact .inl ⟨hr, rfl⟩
  · rw [hp] at hu; cases hu
  · exact absurd rfl hne
  · cases hd : p.req.decoded with
    | illegal c =>
      rw [serveCycle_of_illegal impl hd] at h
      cases h
      exact absurd rfl hne
    | legal i =>
      by_cases hi : ∃ d, i = .wrDr d
      · obtain ⟨d, rfl⟩ := hi
        exact .inr (.inl ⟨hr, hv, d, rfl⟩)
      · rw [serveCycle_of_legal impl hd fun d e => hi ⟨d, e⟩] at h
        obtain hw | ⟨d, rfl, hbit, hacc⟩ := exec_changes_acc h hne
        · exact absurd hw hi
        · exact .inr (.inr ⟨hr, hv, hacc, d, rfl, hbit⟩)

/-- Settles O47: two such states agree on all that later cycles look at, and every cycle keeps that. -/
theorem futureDependsOnTheAccumulatorOnly : Obligations.FutureDependsOnTheAccumulatorOnly := by
  constructor
  · intro impl s hi hp ho
    exact (hi.portFree hp ho).2.1
  · intro impl ps s s' t out hi hi' hp hp' ho ho' ha hs
    have hb : SameBlock s s' := .of_portFree (hi.portFree hp ho) (hi'.portFree hp' ho') hp hp' ha
    obtain ⟨t', ht', hb⟩ := hb.runCycles_congr hs
    exact ⟨t', ht', hb.acc, hb.shiftCnt⟩

/-- Settles O33: the reset values are the definitions', and a CR write with bit 0 set loads INIT. -/
theorem resetValues : Obligations.ResetValues :=
  ⟨rfl, rfl, rfl, rfl, fun s => ⟨rfl, rfl, rfl, rfl, fun _ hd =>
    ⟨writeCR_acc_of_odd s hd, writeCR_acc_of_odd s hd, rfl⟩⟩⟩

/-- Settles O44: in each of the three states the port is free, or the block has had no reset yet. -/
theorem resetStateMeetsTheInvariant : Obligations.ResetStateMeetsTheInvariant := fun impl =>
  ⟨inv_of_portFree impl rfl ⟨rfl, rfl, rfl⟩, fun s => ⟨hardReset_inv impl s, unspecified_inv impl s⟩⟩

end Sys2Proof.Machine

/-! SUPPORT. The port, the register window and who stands behind it: the four legal requests, the transaction of each on a
free port, the platform's decode of BASE, byte orders, runs of transactions and computations that do not overlap; from these
the statements on the window and the bus are settled. -/

namespace Sys2Proof.Machine

open Sys2Proof

variable {s t u : State} {form : SerialForm} {impl : CrcImpl} {r : Request} {d : Word} {c : Cause}

/-! ### The legal requests (R45, R48, R52) -/

/-- A descriptor is its four fields (R45). -/
theorem descriptor_of_fields (q : Descriptor) :
    BitVec.ofBool (Descriptor.weField q) ++ Descriptor.sizeField q ++ (Descriptor.regField q ++ Descriptor.byteField q) =
      q := by
  revert q; decide

/-- The decoder's legal answers, each with its one descriptor (R48). -/
theorem decode_eq_legal_iff (q : Descriptor) (d : Word) (i : Instr) :
    decode q d = .legal i ↔
      (q = 0x60#7 ∧ i = .wrDr d) ∨ (q = 0x20#7 ∧ i = .rdDr) ∨ (q = 0x64#7 ∧ i = .wrCr d) ∨ (q = 0x24#7 ∧ i = .rdCr) := by
  constructor
  · intro h
    have hq := descriptor_of_fields q
    unfold decode at h
    split_ifs at h with h1 h2 h3 h4 h5 h6 h7
    all_goals rw [not_not] at h3 h4; rw [h3, h4] at hq; cases h
    · rw [h5.1, h5.2] at hq
      exact .inl ⟨hq.symm, rfl⟩
    · rw [h6.1, h6.2] at hq
      exact .inr (.inl ⟨hq.symm, rfl⟩)
    · rw [h7.1, h7.2] at hq
      exact .inr (.inr (.inl ⟨hq.symm, rfl⟩))
    · have hreg : ∀ x : BitVec 2, ∀ b : Bool, ¬(x = 0b10#2 ∨ x = 0b11#2) → ¬(x = 0b00#2 ∧ b = true) →
          ¬(x = 0b00#2 ∧ b = false) → ¬(x = 0b01#2 ∧ b = true) → x = 0b01#2 ∧ b = false := by decide
      obtain ⟨hr, hw⟩ := hreg _ _ h2 h5 h6 h7
      rw [hr, hw] at hq
      exact .inr (.inr (.inr ⟨hq.symm, rfl⟩))
  · rintro (⟨rfl, rfl⟩ | ⟨rfl, rfl⟩ | ⟨rfl, rfl⟩ | ⟨rfl, rfl⟩) <;> rfl

/-- The ports and the descriptor with the write data say the same (R45). -/
@[simp] theorem ofDescriptor_descriptor (r : Request) : Request.ofDescriptor r.descriptor r.wdata = r := by
  obtain ⟨we, size, addr, wdata⟩ := r
  have hfields : ∀ (we : Bool) (size : BitVec 2) (addr : BitVec 4),
      Request.ofDescriptor (BitVec.ofBool we ++ size ++ addr) 0#32 = ⟨we, size, addr, 0#32⟩ := by decide
  have h := hfields we size addr
  simp only [Request.ofDescriptor, Request.mk.injEq, and_true] at h
  simpa only [Request.ofDescriptor, Request.descriptor, Request.mk.injEq, and_true] using h

@[simp] theorem weField_descriptor (r : Request) : Descriptor.weField r.descriptor = r.we :=
  congrArg Request.we (ofDescriptor_descriptor r)

@[simp] theorem sizeField_descriptor (r : Request) : Descriptor.sizeField r.descriptor = r.size :=
  congrArg Request.size (ofDescriptor_descriptor r)

/-- REG is REQ_ADDR[3:2] (R45). -/
@[simp] theorem regField_descriptor (r : Request) : Descriptor.regField r.descriptor = BitVec.extractLsb' 2 2 r.addr := by
  have hreg : ∀ q : Descriptor, Descriptor.regField q = BitVec.extractLsb' 2 2 (BitVec.extractLsb' 0 4 q) := by decide
  rw [hreg]
  exact congrArg _ (congrArg Request.addr (ofDescriptor_descriptor r))

/-- The four legal requests on the ports: an aligned word access to DR or CR (R48). -/
theorem decoded_eq_legal_iff {i : Instr} :
    r.decoded = .legal i ↔
      (∃ d, r = ⟨true, 0b10#2, 0x0#4, d⟩ ∧ i = .wrDr d) ∨ (∃ d, r = ⟨false, 0b10#2, 0x0#4, d⟩ ∧ i = .rdDr) ∨
      (∃ d, r = ⟨true, 0b10#2, 0x4#4, d⟩ ∧ i = .wrCr d) ∨ (∃ d, r = ⟨false, 0b10#2, 0x4#4, d⟩ ∧ i = .rdCr) := by
  rw [Request.decoded, decode_eq_legal_iff]
  constructor
  · have hr := ofDescriptor_descriptor r
    rintro (⟨hq, hi⟩ | ⟨hq, hi⟩ | ⟨hq, hi⟩ | ⟨hq, hi⟩) <;> rw [hq] at hr
    · exact .inl ⟨r.wdata, hr.symm, hi⟩
    · exact .inr (.inl ⟨r.wdata, hr.symm, hi⟩)
    · exact .inr (.inr (.inl ⟨r.wdata, hr.symm, hi⟩))
    · exact .inr (.inr (.inr ⟨r.wdata, hr.symm, hi⟩))
  · rintro (⟨d, rfl, rfl⟩ | ⟨d, rfl, rfl⟩ | ⟨d, rfl, rfl⟩ | ⟨d, rfl, rfl⟩) <;> simp [Request.descriptor]

@[simp] theorem decoded_write_dr (d : Word) : Request.decoded ⟨true, 0b10#2, 0x0#4, d⟩ = .legal (.wrDr d) :=
  decoded_eq_legal_iff.mpr (.inl ⟨d, rfl, rfl⟩)

@[simp] theorem decoded_read_dr (d : Word) : Request.decoded ⟨false, 0b10#2, 0x0#4, d⟩ = .legal .rdDr :=
  decoded_eq_legal_iff.mpr (.inr (.inl ⟨d, rfl, rfl⟩))

@[simp] theorem decoded_write_cr (d : Word) : Request.decoded ⟨true, 0b10#2, 0x4#4, d⟩ = .legal (.wrCr d) :=
  decoded_eq_legal_iff.mpr (.inr (.inr (.inl ⟨d, rfl, rfl⟩)))

@[simp] theorem decoded_read_cr (d : Word) : Request.decoded ⟨false, 0b10#2, 0x4#4, d⟩ = .legal .rdCr :=
  decoded_eq_legal_iff.mpr (.inr (.inr (.inr ⟨d, rfl, rfl⟩)))

theorem decoded_crcReset : crcReset.decoded = .legal (.wrCr 0x00000001#32) := decoded_write_cr 0x00000001#32

theorem decoded_crcResult : crcResult.decoded = .legal .rdDr := decoded_read_dr 0x00000000#32

/-- The reserved offsets (R29, R50): an access of any size that is not itself reserved. -/
theorem decoded_reserved_offset (hs : r.size ≠ 0b11#2) (ha : 8 ≤ r.addr.toNat) : r.decoded = .illegal .addr := by
  have hreg : ∀ a : BitVec 4, 8 ≤ a.toNat → BitVec.extractLsb' 2 2 a = 0b10#2 ∨ BitVec.extractLsb' 2 2 a = 0b11#2 := by
    decide
  rw [Request.decoded, decode, if_neg (by rwa [sizeField_descriptor]),
    if_pos (by rw [regField_descriptor]; exact hreg _ ha)]

/-- A legal request is an aligned word access (R32, R33). -/
theorem aligned_word_of_legal {i : Instr} (h : r.decoded = .legal i) : r.size = 0b10#2 ∧ r.addr.toNat % 4 = 0 := by
  obtain ⟨d, rfl, -⟩ | ⟨d, rfl, -⟩ | ⟨d, rfl, -⟩ | ⟨d, rfl, -⟩ := decoded_eq_legal_iff.mp h <;> simp

/-- A read's decoding does not look at the write data (R35). -/
theorem decode_of_read {q : Descriptor} (hq : Descriptor.weField q = false) (d d' : Word) : decode q d = decode q d' := by
  simp [decode, hq]

theorem decoded_read_wdata (h : r.we = false) (d : Word) : Request.decoded { r with wdata := d } = r.decoded :=
  decode_of_read ((weField_descriptor r).trans h) d r.wdata

/-! ### Writes of DR and CR (R71, R75, R76) -/

/-- Writing the value of ACC clears it (R68). -/
@[simp] theorem crcUpdate_self (a : Word) : crcUpdate a a = 0#32 := by
  rw [crcUpdate, BitVec.xor_self, crcSteps_zero_word]

/-- The 32 steps shift a single 1 out, which folds POLY in. -/
theorem crcUpdate_zero_one : crcUpdate 0#32 1#32 = 0x04C11DB7#32 := by
  simp [crcUpdate, crcSteps, crcStep, Config.poly]

theorem writeCR_of_odd (s : State) (hd : d.toNat % 2 = 1) : writeCR d s = loadInit s := by
  simp [writeCR, (resetBit_iff d).mpr hd]

theorem writeCR_of_even (s : State) (hd : d.toNat % 2 = 0) : writeCR d s = s := by
  simp [writeCR, (resetBit_eq_false_iff d).mpr hd]

/-- Bits 31:1 of a CR write are ignored. -/
theorem exec_wrCr_bit_zero (d : Word) (s : State) : exec (.wrCr (d &&& 1#32)) s = exec (.wrCr d) s := by
  have h : resetBit (d &&& 1#32) = resetBit d := by simp [resetBit]
  simp only [exec, execWrCr, writeCR, h]

theorem exec_wrCr_eq (d : Word) (s : State) :
    exec (.wrCr d) s =
      .next { s with acc := if d.toNat % 2 = 1 then Config.init else s.acc, resp := some (.ok 0x00000000#32) } := by
  obtain hd | hd := Nat.mod_two_eq_zero_or_one d.toNat
  · rw [if_neg (by omega)]
    simp only [exec, execWrCr, writeCR_of_even s hd, respondOk]
  · rw [if_pos hd]
    simp only [exec, execWrCr, writeCR_of_odd s hd, respondOk, loadInit]

/-! ### One transaction, by what its request decodes to (R79, R81) -/

theorem transact_of_legal (impl : CrcImpl) {i : Instr} (hp : s.power = .operational) (hd : r.decoded = .legal i) :
    transact impl r s = exec i (settle impl s) := by
  simp only [transact, hp, hd]

theorem transact_of_illegal (impl : CrcImpl) (hp : s.power = .operational) (hd : r.decoded = .illegal c) :
    transact impl r s = .next (busError c (settle impl s)) := by
  simp only [transact, hp, hd]

theorem transact_of_unreset (impl : CrcImpl) (r : Request) (hp : s.power = .unreset) :
    transact impl r s = .refused .noResetSincePowerUp := by
  simp only [transact, hp]

theorem transact_legal_free (impl : CrcImpl) {i : Instr} (hp : s.power = .operational) (ho : s.outstanding = none)
    (hd : r.decoded = .legal i) : transact impl r s = exec i s := by
  rw [transact_of_legal impl hp hd, settle_free impl ho]

theorem transact_illegal_free (impl : CrcImpl) (hp : s.power = .operational) (ho : s.outstanding = none)
    (hd : r.decoded = .illegal c) : transact impl r s = .next { s with resp := some (.err c) } := by
  rw [transact_of_illegal impl hp hd, settle_free impl ho]
  rfl

/-- A transaction looks at its request by the decoder only. -/
theorem transact_decoded_congr (impl : CrcImpl) {r' : Request} (h : r.decoded = r'.decoded) (s : State) :
    transact impl r s = transact impl r' s := by
  unfold transact; rw [h]

/-- RSP_RDATA with the response of a write and with an error response (R35). -/
theorem ports_rdata_eq_zero (hp : s.power = .operational)
    (hv : s.resp = some (.ok 0x00000000#32) ∨ ∃ c, s.resp = some (.err c)) : s.ports.rdata = 0x00000000#32 := by
  obtain hv | ⟨c, hv⟩ := hv <;> simp only [State.ports, hp, hv, Resp.ports]

theorem transact_crcReset (impl : CrcImpl) (hp : s.power = .operational) (ho : s.outstanding = none) :
    transact impl crcReset s = .next (respondOk 0x00000000#32 (loadInit s)) :=
  transact_legal_free impl hp ho decoded_crcReset

theorem transact_crcResult (impl : CrcImpl) (hp : s.power = .operational) (ho : s.outstanding = none) :
    transact impl crcResult s = .next (respondOk s.acc s) :=
  transact_legal_free impl hp ho decoded_crcResult

/-! ### The platform's decode of BASE (R28) -/

theorem request?_inside {base k : Nat} {a : BusAccess} (hk : k < 16) (ha : a.addr = base + k) :
    a.request? base = some ⟨a.we, a.size, BitVec.ofNat 4 k, a.wdata⟩ := by
  have hin : base ≤ a.addr ∧ a.addr < base + Config.windowBytes := by
    simp only [Config.windowBytes, Config.addrW]; omega
  rw [BusAccess.request?, windowOffset, if_pos hin, ha, Nat.add_sub_cancel_left]
  rfl

theorem request?_outside {base : Nat} {a : BusAccess} (ha : a.addr < base ∨ base + 16 ≤ a.addr) :
    a.request? base = none := by
  have hout : ¬(base ≤ a.addr ∧ a.addr < base + Config.windowBytes) := by
    simp only [Config.windowBytes, Config.addrW]; omega
  rw [BusAccess.request?, windowOffset, if_neg hout]
  rfl

theorem applyEvent_access_some {p : Params} {a : BusAccess} (h : a.request? p.base = some r) (s : State) :
    applyEvent p (.access a) s = transact p.crcImpl r s := by
  simp only [applyEvent, h]

theorem applyEvent_access_none {p : Params} {a : BusAccess} (h : a.request? p.base = none) (s : State) :
    applyEvent p (.access a) s = unaddressed p.crcImpl s := by
  simp only [applyEvent, h]

theorem unaddressed_of_operational (impl : CrcImpl) (hp : s.power = .operational) :
    unaddressed impl s = .next (idle (settle impl s)) := by
  simp only [unaddressed, hp]

theorem unaddressed_of_unreset (impl : CrcImpl) (hp : s.power = .unreset) :
    unaddressed impl s = .next (unspecified s) := by
  simp only [unaddressed, hp]

/-- An access outside the window is an idle cycle for a block whose port is free (R78). -/
theorem applyEvent_access_outside {p : Params} {a : BusAccess} (ha : a.addr < p.base ∨ p.base + 16 ≤ a.addr)
    (hp : s.power = .operational) (ho : s.outstanding = none) : applyEvent p (.access a) s = .next (idle s) := by
  rw [applyEvent_access_none (request?_outside ha), unaddressed_of_operational _ hp, settle_free _ ho]

/-! ### A step, by what is queued -/

theorem stepWith_event (p : Params) {ev : HostEvent} {rest : List HostEvent} (h : s.pending = ev :: rest) :
    stepWith p s = applyEvent p ev { s with pending := rest } := by
  simp only [stepWith, h]

theorem stepWith_rest (p : Params) (h : s.pending = []) : stepWith p s = tick p.crcImpl (restPins s) s := by
  simp only [stepWith, h]

/-! ### A transaction issued during a serial write (R27, R73) -/

/-- After fewer held cycles than remain, the write is still outstanding and ends where it would have ended. -/
theorem State.Writing.runCycles_writing {k : Nat} {out : List (Option Resp)} (h : s.Writing form r d)
    (hk : k < s.shiftCnt.val) (hrun : runCycles (.serial form) (List.replicate k (holdPins r)) s = .next (u, out)) :
    u.Writing form r d ∧ serialDone form u = serialDone form s := by
  induction k generalizing s out with
  | zero =>
    cases hrun
    exact ⟨h, rfl⟩
  | succ k ih =>
    have h0 := h.shiftCnt_ne_zero
    have h1 : s.shiftCnt ≠ 1 := fun e => by simp [e] at hk
    rw [List.replicate_succ, runCycles, h.tick_eq, andThen_next] at hrun
    obtain ⟨⟨w, ws⟩, hw, hrun⟩ := andThen_eq_next hrun
    cases hrun
    obtain ⟨hu, hdone⟩ := ih (h.serialEdge_writing h1) (by rw [serialEdge_shiftCnt, serialShiftCnt_val h0]; omega) hw
    exact ⟨hu, hdone.trans (serialDone_serialEdge h0)⟩

/-- In each of the first 31 cycles of a serial write, what remains of it ends in the state after the whole write. -/
theorem serial_write_in_progress {k : Nat} {out : List (Option Resp)} (hp : s.power = .operational) (hf : s.portFree)
    (hd : r.decoded = .legal (.wrDr d)) (hk : 1 ≤ k) (hk' : k < 32)
    (hrun : runCycles (.serial form) (List.replicate k (holdPins r)) s = .next (u, out)) :
    u.Writing form r d ∧ settle (.serial form) u = respondOk 0x00000000#32 (writeDR d s) := by
  have htick : tick (.serial form) (holdPins r) s = .next (serialEdge form r d s) := by
    rw [tick_serve _ rfl rfl hp (.inl hf.1)]
    exact serveCycle_of_wrDr _ hd s
  have hcnt : (serialEdge form r d s).shiftCnt.val = 31 := by simp [serialShiftCnt, hf.2.1]
  obtain ⟨k, rfl⟩ : ∃ n, k = n + 1 := ⟨k - 1, by omega⟩
  rw [List.replicate_succ, runCycles, htick, andThen_next] at hrun
  obtain ⟨⟨w, ws⟩, hw, hrun⟩ := andThen_eq_next hrun
  cases hrun
  obtain ⟨hu, hdone⟩ := (serialEdge_first_writing hp hf hd).runCycles_writing (by omega) hw
  exact ⟨hu, hu.settle_eq.trans (hdone.trans (serialDone_first_edge hf form r d))⟩

/-! ### Byte orders (R84, R86) -/

/-- Four bytes side by side, the last one lowest. -/
theorem append_eq_wordOfBytes (b0 b1 b2 b3 : Byte) : b0 ++ b1 ++ b2 ++ b3 = wordOfBytes b3 b2 b1 b0 := by
  ext i hi
  rw [wordOfBytes_getElem _ _ _ _ i hi]
  simp only [← BitVec.getLsbD_eq_getElem, BitVec.getLsbD_append]
  grind

/-- Swapping the bytes of a word takes them in the other order. -/
theorem bswap32_wordOfBytes (b0 b1 b2 b3 : Byte) : bswap32 (wordOfBytes b0 b1 b2 b3) = wordOfBytes b3 b2 b1 b0 := by
  obtain ⟨h0, h1, h2, h3⟩ := byteLane_wordOfBytes b0 b1 b2 b3
  rw [bswap32, h0, h1, h2, h3, append_eq_wordOfBytes]

@[simp] theorem bswap32_bswap32 (v : Word) : bswap32 (bswap32 v) = v := by
  rw [← wordOfBytes_byteLane v, bswap32_wordOfBytes, bswap32_wordOfBytes]

theorem hostLoad_big (b0 b1 b2 b3 : Byte) : hostLoad .big b0 b1 b2 b3 = bswap32 (hostLoad .little b0 b1 b2 b3) :=
  (append_eq_wordOfBytes b0 b1 b2 b3).trans (bswap32_wordOfBytes b0 b1 b2 b3).symm

/-- Either host presents the word of R84. -/
theorem hostPresent_eq (order : HostOrder) (b0 b1 b2 b3 : Byte) :
    hostPresent order b0 b1 b2 b3 = wordOfBytes b0 b1 b2 b3 := by
  cases order with
  | little => rfl
  | big => rw [hostPresent, hostLoad_big, bswap32_bswap32]; rfl

/-! ### Several block units on one platform (R110) -/

/-- Each block unit takes a bus access by its own event. -/
theorem platformAccess_getElem? {a : BusAccess} {us us' : List BlockUnit} {k : Nat} {w : BlockUnit}
    (h : platformAccess a us = .next us') (hk : us[k]? = some w) :
    ∃ w', us'[k]? = some w' ∧ w.apply (.access a) = .next w' := by
  induction us generalizing us' k with
  | nil => simp at hk
  | cons v vs ih =>
    obtain ⟨v', hv, h⟩ := andThen_eq_next h
    obtain ⟨vs', hvs, h⟩ := andThen_eq_next h
    cases h
    cases k with
    | zero =>
      cases hk
      exact ⟨v', rfl, hv⟩
    | succ k =>
      obtain ⟨w', hk', hw'⟩ := ih hvs hk
      exact ⟨w', hk', hw'⟩

/-- An event at unit number `j` leaves every other. -/
theorem platformAt_getElem?_of_ne {ev : HostEvent} {us us' : List BlockUnit} {j k : Nat}
    (h : platformAt ev j us = .next us') (hjk : j ≠ k) : us'[k]? = us[k]? := by
  induction us generalizing us' j k with
  | nil =>
    rw [platformAt] at h
    cases h
    rfl
  | cons v vs ih =>
    cases j with
    | zero =>
      obtain ⟨v', -, h⟩ := andThen_eq_next h
      cases h
      obtain ⟨k, rfl⟩ := Nat.exists_eq_succ_of_ne_zero hjk.symm
      rfl
    | succ j =>
      obtain ⟨vs', hvs, h⟩ := andThen_eq_next h
      cases h
      cases k with
      | zero => rfl
      | succ k => exact ih hvs fun e => hjk (congrArg _ e)

/-! ### Runs of transactions (R74, R81) -/

theorem runRequests_cons_next {rs : List Request} {v : Resp} {out : List Resp} (h : transact impl r s = .next t)
    (hv : t.resp = some v) (hrun : runRequests impl rs t = .next (u, out)) :
    runRequests impl (r :: rs) s = .next (u, v :: out) := by
  rw [runRequests, h, andThen_next, hrun, andThen_next, hv]
  rfl

theorem runRequests_append_next {rs rs' : List Request} {out out' : List Resp}
    (h : runRequests impl rs s = .next (t, out)) (h' : runRequests impl rs' t = .next (u, out')) :
    runRequests impl (rs ++ rs') s = .next (u, out ++ out') := by
  induction rs generalizing s t out with
  | nil =>
    cases h
    exact h'
  | cons r rs ih =>
    obtain ⟨s', hs, h⟩ := andThen_eq_next h
    obtain ⟨⟨w, ws⟩, hw, h⟩ := andThen_eq_next h
    cases h
    rw [List.cons_append, runRequests, hs, andThen_next, ih hw h', andThen_next, List.append_assoc]

/-- One transaction on the words written since the last reset (R74). -/
theorem wordsSinceReset_cons (ws : List Word) (r : Request) (rs : List Request) :
    wordsSinceReset ws (r :: rs) = wordsSinceReset (wordsSinceReset ws [r]) rs := by
  simp only [wordsSinceReset]
  cases r.decoded with
  | illegal c => rfl
  | legal i => cases i <;> rfl

/-- ACC is the fold over the words since the last reset, and every transaction keeps it so (R74). -/
theorem transact_acc_wordsSinceReset {ws : List Word} (hp : s.power = .operational) (ho : s.outstanding = none)
    (ha : s.acc = crcWords Config.init ws) (h : transact impl r s = .next t) :
    t.acc = crcWords Config.init (wordsSinceReset ws [r]) := by
  cases hd : r.decoded with
  | illegal c =>
    rw [transact_illegal_free impl hp ho hd] at h
    cases h
    simpa only [wordsSinceReset, hd] using ha
  | legal i =>
    rw [transact_legal_free impl hp ho hd] at h
    simp only [wordsSinceReset, hd]
    cases i with
    | wrDr d =>
      cases h
      rw [respondOk_acc, writeDR_acc, ha, crcWords_append]
      rfl
    | rdDr => exact (exec_keeps_acc (.inl rfl) h).trans ha
    | wrCr d =>
      cases h
      simp only [respondOk_acc, writeCR_acc]
      split
      · rfl
      · exact ha
    | rdCr => exact (exec_keeps_acc (.inr (.inl rfl)) h).trans ha

/-- A run from a free port answers every transaction, leaves the port free, and keeps ACC the fold over the words since the
last reset. -/
theorem runRequests_free (impl : CrcImpl) (rs : List Request) (hp : s.power = .operational) (hf : s.portFree) :
    ∃ t out, runRequests impl rs s = .next (t, out) ∧ out.length = rs.length ∧ t.power = .operational ∧ t.portFree ∧
      ∀ ws, s.acc = crcWords Config.init ws → t.acc = crcWords Config.init (wordsSinceReset ws rs) := by
  induction rs generalizing s with
  | nil => exact ⟨s, [], rfl, rfl, hp, hf, fun _ ha => ha⟩
  | cons r rs ih =>
    obtain ⟨a, v, hr⟩ := transact_writes_acc_and_resp impl r hp hf.1
    obtain ⟨t, out, hrun, hlen, htp, htf, hacc⟩ := ih (s := { s with acc := a, resp := some v }) hp hf
    refine ⟨t, v :: out, runRequests_cons_next hr rfl hrun, by simp [hlen], htp, htf, fun ws ha => ?_⟩
    rw [wordsSinceReset_cons]
    exact hacc _ (transact_acc_wordsSinceReset hp hf.1 ha hr)

/-- No reflection and no final XOR (R61). -/
@[simp] theorem crcOutput_eq (acc : Word) : crcOutput acc = acc := by
  simp [crcOutput, Config.refOut, Config.xorOut]

/-- A computation's CRC.RESET, whatever transactions follow it and then its read: the read returns the checksum of the words
written since the last reset among them, whatever came before and comes after. -/
theorem runRequests_reset_read (impl : CrcImpl) (before mid after : List Request) (hp : s.power = .operational)
    (hf : s.portFree) :
    ∃ t out, runRequests impl (before ++ crcReset :: (mid ++ crcResult :: after)) s = .next (t, out) ∧
      out[before.length + 1 + mid.length]? = some (.ok (checksum (wordsSinceReset [] mid))) := by
  obtain ⟨s1, out1, hrun1, hlen1, hp1, hf1, -⟩ := runRequests_free impl before hp hf
  obtain ⟨s2, out2, hrun2, hlen2, hp2, hf2, hacc2⟩ :=
    runRequests_free impl mid (s := respondOk 0#32 (loadInit s1)) hp1 hf1
  obtain ⟨s3, out3, hrun3, -⟩ := runRequests_free impl after (s := respondOk s2.acc s2) hp2 hf2
  refine ⟨s3, _, runRequests_append_next hrun1 (runRequests_cons_next (transact_crcReset impl hp1 hf1.1) rfl
    (runRequests_append_next hrun2 (runRequests_cons_next (transact_crcResult impl hp2 hf2.1) rfl hrun3))), ?_⟩
  rw [checksum, crcOutput_eq, ← hacc2 [] rfl, ← hlen1, ← hlen2, List.getElem?_append_right (by omega),
    show out1.length + 1 + out2.length - out1.length = out2.length + 1 by omega, List.getElem?_cons_succ,
    List.getElem?_append_right (le_refl _), Nat.sub_self, List.getElem?_cons_zero]

/-! ### Computations that do not overlap (R124) -/

@[simp] theorem ownerAfter_crcReset (owner : Option ComputationId) (c : ComputationId) (later : List MasterRequest) :
    ownerAfter owner ⟨c, crcReset⟩ later = some c := by
  simp [ownerAfter, decoded_crcReset, resetBit]

/-- From a computation's CRC.RESET on, it is the open one. -/
theorem noOverlap_from_reset {owner : Option ComputationId} {c : ComputationId} {before rest : List MasterRequest}
    (h : noOverlap owner (before ++ ⟨c, crcReset⟩ :: rest) = true) : noOverlap (some c) rest = true := by
  obtain ⟨owner', h⟩ := noOverlap_suffix before _ h
  simp only [noOverlap, ownerAfter_crcReset, Bool.and_eq_true] at h
  exact h.2

/-! ### The obligations -/

/-- Settles O5: both sides name the same four descriptors. -/
theorem wellFormedDescriptorsAreTheLegalOnes : Obligations.WellFormedDescriptorsAreTheLegalOnes := by
  intro q d
  have hwf : ∀ q : Descriptor, Descriptor.wellFormed q = true ↔ q = 0x60#7 ∨ q = 0x20#7 ∨ q = 0x64#7 ∨ q = 0x24#7 := by
    decide
  simp only [hwf, decode_eq_legal_iff, exists_or, exists_and_left, exists_eq, and_true]

/-- Settles O20: each offset's request decodes to its row of the map, and the transaction is that row's meaning. -/
theorem registerMapOfTheWindow : Obligations.RegisterMapOfTheWindow := by
  intro impl d s hp hf
  refine ⟨transact_legal_free impl hp hf.1 (decoded_read_dr d), transact_legal_free impl hp hf.1 (decoded_write_dr d),
    transact_legal_free impl hp hf.1 (decoded_read_cr d),
    (transact_legal_free impl hp hf.1 (decoded_write_cr d)).trans (exec_wrCr_eq d s), ?_, rfl, rfl⟩
  intro we off hoff
  have h8 : 8 ≤ off.toNat := by obtain rfl | rfl := hoff <;> decide
  exact transact_illegal_free impl hp hf.1 (decoded_reserved_offset (show 0b10#2 ≠ 0b11#2 by decide) h8)

/-- Settles O21: a legal request is an aligned word access, so any other gets the error response. -/
theorem narrowAndMisalignedAccessesAreErrors : Obligations.NarrowAndMisalignedAccessesAreErrors := by
  refine ⟨fun impl r s hp hf hr => ?_, fun r i h => aligned_word_of_legal h⟩
  cases hd : r.decoded with
  | illegal c => exact ⟨c, transact_illegal_free impl hp hf.1 hd⟩
  | legal i =>
    obtain ⟨hsize, haddr⟩ := aligned_word_of_legal hd
    cases hr with
    | inl h => exact absurd hsize h
    | inr h => exact absurd haddr h

/-- Settles O24: of the four legal requests the two writes respond with 0, a read's decoding ignores the write data, and a CR
write looks at bit 0. -/
theorem valuesThatCarryNoMeaning : Obligations.ValuesThatCarryNoMeaning := by
  intro impl r s hp hf
  have herr : ∀ c, r.decoded = .illegal c → ∃ t, transact impl r s = .next t ∧ t.ports.rdata = 0x00000000#32 :=
    fun c hd => ⟨_, transact_illegal_free impl hp hf.1 hd, ports_rdata_eq_zero hp (.inr ⟨c, rfl⟩)⟩
  refine ⟨fun hwe => ?_, herr, fun hwe d => transact_decoded_congr impl (decoded_read_wdata hwe d) s, fun d hd => ?_⟩
  · cases hd : r.decoded with
    | illegal c => exact herr c hd
    | legal i =>
      rw [transact_legal_free impl hp hf.1 hd]
      obtain ⟨d, -, rfl⟩ | ⟨d, rfl, -⟩ | ⟨d, -, rfl⟩ | ⟨d, rfl, -⟩ := decoded_eq_legal_iff.mp hd
      · exact ⟨_, rfl, ports_rdata_eq_zero hp (.inl rfl)⟩
      · cases hwe
      · exact ⟨_, exec_wrCr_eq d s, ports_rdata_eq_zero hp (.inl rfl)⟩
      · cases hwe
  · obtain ⟨e, -, hi⟩ | ⟨e, -, hi⟩ | ⟨e, rfl, hi⟩ | ⟨e, -, hi⟩ := decoded_eq_legal_iff.mp hd <;> cases hi
    rw [transact_legal_free impl hp hf.1 (decoded_write_cr (d &&& 1#32)), transact_legal_free impl hp hf.1 hd,
      exec_wrCr_bit_zero]

/-- Settles O25: what leaves the state but for the response is seen by no later instruction. -/
theorem sideEffectsAndIdempotency : Obligations.SideEffectsAndIdempotency := by
  refine ⟨?_, ?_, ?_, ?_, ?_⟩
  · rintro s t (h | h) i
    · cases h; exact exec_resp i s _
    · cases h; exact exec_resp i s _
  · intro d s t u h h'
    cases h
    cases h'
    exact ⟨by rw [respondOk_acc, writeDR_acc], by rw [respondOk_acc, writeDR_acc]⟩
  · refine ⟨0x00000001#32, { State.reset with acc := 0x00000001#32 }, _, _, rfl, rfl, ?_⟩
    simp only [respondOk_acc, writeDR_acc, crcUpdate_self, crcUpdate_zero_one]
    decide
  · intro d s t hd h
    rw [exec_wrCr_eq, if_pos hd] at h
    cases h
    exact ⟨rfl, by rw [exec_wrCr_eq, if_pos hd]⟩
  · intro d s t hd h i
    rw [exec_wrCr_eq, if_neg (by omega)] at h
    cases h
    exact exec_resp i s _

/-- Settles O31, by the platform's decode of an address inside and outside the window. -/
theorem busAccessesReachTheBlockInsideItsWindow : Obligations.BusAccessesReachTheBlockInsideItsWindow :=
  fun p _ s => ⟨Nat.mul_mod_right 16 p.baseBlock, fun _ hk ha => applyEvent_access_some (request?_inside hk ha) s,
    fun ha hp hf => applyEvent_access_outside ha hp hf.1⟩

/-- Settles O43: what remains of the write ends in the state after the whole write, where the transaction then begins. -/
theorem transactionsWaitForASerialWrite : Obligations.TransactionsWaitForASerialWrite := by
  intro form r r' d s t u k out hp hf hd hk hk' hrun ht
  rw [transact_wrDr _ hp hf.1 hd] at ht
  cases ht
  obtain ⟨hw, hdone⟩ := serial_write_in_progress hp hf hd hk hk' hrun
  have hwait : transact (.serial form) r' u = transact (.serial form) r' (respondOk 0x00000000#32 (writeDR d s)) := by
    rw [transact_settle hw.inv hw.power, hdone]
  refine ⟨hwait, fun hr' => ?_⟩
  rw [hwait, transact_legal_free (s := respondOk 0x00000000#32 (writeDR d s)) _ hp hf.1 hr']
  exact ⟨_, rfl, by rw [respondOk_resp, readDR, respondOk_acc, writeDR_acc]⟩

/-- Settles O49: a big-endian load is the byte reversal, which the host's swap takes back. -/
theorem hostsOfEitherByteOrderFeedTheSameWords : Obligations.HostsOfEitherByteOrderFeedTheSameWords :=
  ⟨fun _ _ => List.map_congr_left fun _ _ => hostPresent_eq _ _ _ _ _, hostLoad_big, bswap32_bswap32⟩

/-- Settles O58: each block unit takes an event by its own state, and outside its window that event is an idle cycle. -/
theorem instancesShareNoState : Obligations.InstancesShareNoState := by
  refine ⟨fun a us us' k w h hk hp hf ha => ?_, fun ev us us' j k => platformAt_getElem?_of_ne⟩
  obtain ⟨w', hk', hw'⟩ := platformAccess_getElem? h hk
  rw [BlockUnit.apply, applyEvent_access_outside ha hp hf.1] at hw'
  cases hw'
  exact ⟨_, hk', rfl, rfl⟩

/-- Settles O59: from its CRC.RESET to its result read all transactions are the computation's own. -/
theorem separateComputationsReadTheirOwnChecksum : Obligations.SeparateComputationsReadTheirOwnChecksum := by
  constructor
  · intro impl c before mid after s hp hf hread h
    obtain ⟨hown, -⟩ := noOverlap_owned mid _ (fun xs ys x e hs hd => by
      obtain ⟨y, hy, hyc⟩ := hread xs ys x e hs hd
      exact ⟨y, List.mem_append_left _ hy, hyc⟩) (noOverlap_from_reset h)
    rw [List.filter_eq_self.mpr fun t ht => beq_iff_eq.mpr (hown t ht)]
    simpa using runRequests_reset_read impl (before.map (·.req)) (mid.map (·.req)) (after.map (·.req)) hp hf
  · intro c before mid after x y hx hy hyc hyw
    by_contra h
    rw [Bool.not_eq_false] at h
    obtain ⟨-, h⟩ := noOverlap_owned mid _ (fun xs ys z _ _ _ => ⟨y, by simp [hy], hyc, hyw⟩) (noOverlap_from_reset h)
    simp only [noOverlap, Bool.and_eq_true, beq_iff_eq] at h
    exact hx h.1

/-- Settles O27, event by event: the step takes the next event's own rule at the state with that event removed. -/
theorem stepRunsTheDecodedInstruction : Obligations.StepRunsTheDecodedInstruction := by
  refine ⟨fun s r rest h => ?_, fun s pins rest h => stepWith_event _ h, fun s a rest h => ?_,
    fun s rest h => stepWith_event _ h, fun s rest h => stepWith_event _ h, fun s h => ?_,
    fun p s ev rest h => stepWith_event p h⟩
  · have hstep : step s = transact Config.crcImpl r { s with pending := rest } := stepWith_event _ h
    refine ⟨fun hp => ⟨fun i hd => ?_, fun c hd => ?_⟩, fun hp => ?_⟩ <;> rw [hstep]
    · exact ⟨transact_of_legal _ hp hd, fun ho => transact_legal_free _ hp ho hd⟩
    · exact ⟨transact_of_illegal _ hp hd, fun ho => transact_illegal_free _ hp ho hd⟩
    · exact transact_of_unreset _ r hp
  · have hstep : step s = applyEvent Config.params (.access a) { s with pending := rest } := stepWith_event _ h
    refine ⟨fun r hr => ?_, fun hr hp => ?_, fun hr hp => ?_⟩ <;> rw [hstep]
    · exact applyEvent_access_some hr _
    · rw [applyEvent_access_none hr]; exact unaddressed_of_operational _ hp
    · rw [applyEvent_access_none hr]; exact unaddressed_of_unreset _ hp
  · have hstep : step s = tick Config.crcImpl (restPins s) s := stepWith_rest _ h
    exact ⟨fun ho => by rw [hstep, restPins, ho], fun r ho => by rw [hstep, restPins, ho]⟩

end Sys2Proof.Machine

/-! SUPPORT. The encoding and the assembler: an instruction's request and container decode back to it, the four classes of
illegal descriptors by their fields, a presented table word, and what each statement of the assembler expands to; from these
the statements on the encoding are settled. -/

namespace Sys2Proof.Machine

open Sys2Proof

variable {r : Request} {policy : PadPolicy}

/-! ### Encodings decode back (R45, R47, R48, R52) -/

@[simp] theorem decode_encode (i : Instr) : decode (encode i).1 (encode i).2 = .legal i := by
  rw [decode_eq_legal_iff]
  cases i with
  | wrDr d => exact .inl ⟨rfl, rfl⟩
  | rdDr => exact .inr (.inl ⟨rfl, rfl⟩)
  | wrCr d => exact .inr (.inr (.inl ⟨rfl, rfl⟩))
  | rdCr => exact .inr (.inr (.inr ⟨rfl, rfl⟩))

@[simp] theorem decoded_request (i : Instr) : i.request.decoded = .legal i := by
  rw [Request.decoded, Instr.request, descriptor_ofDescriptor]
  exact decode_encode i

theorem request_wrDr (d : Word) : (Instr.wrDr d).request = ⟨true, 0b10#2, 0x0#4, d⟩ := by
  simp [Instr.request, encode, Request.ofDescriptor, Descriptor.weField, Descriptor.sizeField]

theorem request_wrCr (d : Word) : (Instr.wrCr d).request = ⟨true, 0b10#2, 0x4#4, d⟩ := by
  simp [Instr.request, encode, Request.ofDescriptor, Descriptor.weField, Descriptor.sizeField]

/-- The container of an instruction holds its request; a write's operand is put together again from its byte lanes. -/
theorem requestOfBytes_encodeBytes (i : Instr) (rest : List Byte) :
    requestOfBytes (encodeBytes i ++ rest) = .ok (i.request, rest) := by
  cases i with
  | wrDr d => simp [encodeBytes, encode, requestOfBytes, wordOfBytes_byteLane, Instr.request]
  | rdDr => rfl
  | wrCr d => simp [encodeBytes, encode, requestOfBytes, wordOfBytes_byteLane, Instr.request]
  | rdCr => rfl

theorem decodeBytes_encodeBytes (i : Instr) (rest : List Byte) :
    decodeBytes (encodeBytes i ++ rest) = .ok (.legal i, rest) := by
  simp only [decodeBytes, requestOfBytes_encodeBytes, decoded_request]

/-- A read has WE = 0 (R45). -/
theorem we_eq_false_of_descriptor {q : Descriptor} (h : r.descriptor = q) (hq : Descriptor.weField q = false) :
    r.we = false := by
  rw [← weField_descriptor, h, hq]

/-- A legal request carries the descriptor of what it decodes to, and a write its operand. -/
theorem encode_of_decoded {i : Instr} (h : r.decoded = .legal i) :
    r.descriptor = (encode i).1 ∧ (r.we = true → r.wdata = (encode i).2) := by
  obtain ⟨hq, rfl⟩ | ⟨hq, rfl⟩ | ⟨hq, rfl⟩ | ⟨hq, rfl⟩ := (decode_eq_legal_iff _ _ _).mp h
  · exact ⟨hq, fun _ => rfl⟩
  · exact ⟨hq, fun hwe => nomatch hwe.symm.trans (we_eq_false_of_descriptor hq rfl)⟩
  · exact ⟨hq, fun _ => rfl⟩
  · exact ⟨hq, fun hwe => nomatch hwe.symm.trans (we_eq_false_of_descriptor hq rfl)⟩

/-- A table word that decodes stands for a request that decodes to the same. -/
theorem tableRequest_of_decodeTableWord {nbits w : Nat} {i : Instr} (h : decodeTableWord nbits w = some i) :
    ∃ r, tableRequest nbits w = some r ∧ r.decoded = .legal i := by
  unfold decodeTableWord at h
  cases hr : tableRequest nbits w with
  | none => simp [hr] at h
  | some r =>
    cases hd : r.decoded with
    | legal j =>
      simp only [hr, hd, Decoded.instr?, Option.some.injEq] at h
      exact ⟨r, rfl, by rw [hd, h]⟩
    | illegal c => simp [hr, hd, Decoded.instr?] at h

theorem withFetchWord_of_tableRequest {nbits w : Nat} (h : tableRequest nbits w = some r) (s : State) :
    s.withFetchWord nbits w = { s with pending := .request r :: s.pending } := by
  simp only [State.withFetchWord, presentTableWord, h]

/-! ### The classes of illegal descriptors (R49) -/

theorem sizeField_toNat (q : Descriptor) : (Descriptor.sizeField q).toNat = q.toNat / 16 % 4 := by
  simp [Descriptor.sizeField, Nat.shiftRight_eq_div_pow]

theorem regField_toNat (q : Descriptor) : (Descriptor.regField q).toNat = q.toNat / 4 % 4 := by
  simp [Descriptor.regField, Nat.shiftRight_eq_div_pow]

theorem byteField_toNat (q : Descriptor) : (Descriptor.byteField q).toNat = q.toNat % 4 := by
  simp [Descriptor.byteField]

/-- R49's condition for a class, on SIZE, REG and BYTE read off the number of a descriptor. -/
def classCondition (n : Nat) : Cause → Bool
  | .sizeRsvd => n / 16 % 4 = 3
  | .addr     => n / 16 % 4 ≠ 3 ∧ 2 ≤ n / 4 % 4
  | .size     => n / 16 % 4 < 2 ∧ n / 4 % 4 < 2
  | .align    => n / 16 % 4 = 2 ∧ n / 4 % 4 < 2 ∧ n % 4 ≠ 0

/-- The decoder answers with a class exactly on R49's condition for it: each condition says that the decoder's earlier tests
fail and its own holds. -/
theorem decode_eq_illegal_iff (q : Descriptor) (d : Word) (c : Cause) :
    decode q d = .illegal c ↔ classCondition q.toNat c = true := by
  unfold decode
  simp only [ne_eq, BitVec.toNat_eq, sizeField_toNat, regField_toNat, byteField_toNat, BitVec.reduceToNat]
  split_ifs with hrsvd hreg hword halign
  all_goals cases c <;> simp [classCondition] <;> omega

/-- Counting descriptors by what they decode to is counting their numbers. -/
theorem countP_decode (d : Word) (P : Decoded → Bool) (p : Nat → Bool)
    (h : ∀ q : Descriptor, P (decode q d) = true ↔ p q.toNat = true) :
    ((List.range 128).countP fun n => P (decode (BitVec.ofNat 7 n) d)) = (List.range 128).countP p := by
  refine List.countP_congr fun n hn => ?_
  rw [h, BitVec.toNat_ofNat, Nat.mod_eq_of_lt (List.mem_range.mp hn)]

theorem countP_decode_illegal (d : Word) (c : Cause) :
    ((List.range 128).countP fun n => decode (BitVec.ofNat 7 n) d == .illegal c) =
      (List.range 128).countP fun n => classCondition n c :=
  countP_decode d (· == .illegal c) _ fun q => by rw [beq_iff_eq, decode_eq_illegal_iff]

theorem instr?_isSome_iff (x : Decoded) : x.instr?.isSome = true ↔ ∃ i, x = .legal i := by
  cases x <;> simp [Decoded.instr?]

theorem countP_decode_legal (d : Word) :
    ((List.range 128).countP fun n => (decode (BitVec.ofNat 7 n) d).instr?.isSome) =
      (List.range 128).countP fun n => Descriptor.wellFormed (BitVec.ofNat 7 n) :=
  countP_decode d (fun x => x.instr?.isSome) _ fun q => by
    rw [instr?_isSome_iff, ← wellFormedDescriptorsAreTheLegalOnes, BitVec.ofNat_toNat, BitVec.setWidth_eq]

/-! ### Statements of the assembler, one by one (R53, R54) -/

theorem literalOk_iff (n : Nat) : literalOk n = true ↔ n < 2 ^ 32 := by
  simp [literalOk]; omega

theorem offsetOk_iff (n : Nat) : offsetOk n = true ↔ n < 16 := by
  simp [offsetOk]; omega

theorem literalOk_eq_false {n : Nat} (h : 2 ^ 32 ≤ n) : literalOk n = false := by
  rw [← Bool.not_eq_true, literalOk_iff]; omega

theorem offsetOk_eq_false {n : Nat} (h : 16 ≤ n) : offsetOk n = false := by
  rw [← Bool.not_eq_true, offsetOk_iff]; omega

theorem assembleStmt_of_wellFormed (st : Stmt) (h : st.wellFormed = true) :
    assembleStmt policy st = expandStmt policy st := if_pos h

theorem assembleStmt_of_not_wellFormed (st : Stmt) (h : st.wellFormed = false) :
    assembleStmt policy st = .error .outOfRange := if_neg (by simp [h])

/-- Two statements with the same range check and the same expansion are the same to the assembler. -/
theorem assembleStmt_congr {st st' : Stmt} (hw : st.wellFormed = st'.wellFormed)
    (he : expandStmt policy st = expandStmt policy st') : assembleStmt policy st = assembleStmt policy st' := by
  rw [assembleStmt, assembleStmt, hw, he]

/-- `WR DR` and `WR CR` make the raw word write of their offset. -/
theorem expandStmt_wrDR (policy : PadPolicy) (n : Nat) :
    expandStmt policy (.wrDR n) = .ok [.request ⟨true, 0b10#2, 0x0#4, BitVec.ofNat 32 n⟩] := by
  rw [expandStmt, instrEvent, request_wrDr]

theorem expandStmt_wrCR (policy : PadPolicy) (n : Nat) :
    expandStmt policy (.wrCR n) = .ok [.request ⟨true, 0b10#2, 0x4#4, BitVec.ofNat 32 n⟩] := by
  rw [expandStmt, instrEvent, request_wrCr]

/-! ### Sequences of statements -/

theorem assemble_cons_ok {st : Stmt} {sts : List Stmt} {evs more : List HostEvent}
    (h : assembleStmt policy st = .ok evs) (h' : assemble policy sts = .ok more) :
    assemble policy (st :: sts) = .ok (evs ++ more) := by
  simp only [assemble, h, h']

theorem assemble_append_ok {xs ys : List Stmt} {evs more : List HostEvent} (h : assemble policy xs = .ok evs)
    (h' : assemble policy ys = .ok more) : assemble policy (xs ++ ys) = .ok (evs ++ more) := by
  induction xs generalizing evs with
  | nil =>
    cases h
    exact h'
  | cons st sts ih =>
    simp only [assemble] at h
    cases hst : assembleStmt policy st with
    | error e => simp [hst] at h
    | ok a =>
      cases hsts : assemble policy sts with
      | error e => simp [hst, hsts] at h
      | ok b =>
        simp only [hst, hsts, Except.ok.injEq] at h
        rw [List.cons_append, assemble_cons_ok hst (ih hsts), ← h, List.append_assoc]

/-- `CRC.WORDS` is its `CRC.FEED`s in order: the first literal out of range refuses both. -/
theorem assembleStmt_crcWords (policy : PadPolicy) (ws : List Nat) :
    assembleStmt policy (.crcWords ws) = assemble policy (ws.map Stmt.crcFeed) := by
  induction ws with
  | nil => rfl
  | cons w ws ih =>
    rw [List.map_cons, assemble, ← ih]
    cases hw : literalOk w with
    | false => simp [assembleStmt, Stmt.wellFormed, hw]
    | true =>
      cases hws : ws.all literalOk with
      | false => simp [assembleStmt, Stmt.wellFormed, expandStmt, hw, hws]
      | true => simp [assembleStmt, Stmt.wellFormed, expandStmt, hw, hws]

/-- `CRC.FEED`s of given words. -/
theorem assemble_crcFeed_words (policy : PadPolicy) (ws : List Word) :
    assemble policy (ws.map fun w => Stmt.crcFeed w.toNat) = .ok ((ws.map crcFeed).map HostEvent.request) := by
  induction ws with
  | nil => rfl
  | cons w ws ih =>
    have hw : assembleStmt policy (.crcFeed w.toNat) = .ok [.request (crcFeed w)] := by
      rw [assembleStmt_of_wellFormed (.crcFeed w.toNat) ((literalOk_iff _).mpr w.isLt), expandStmt, BitVec.ofNat_toNat,
        BitVec.setWidth_eq]
    exact assemble_cons_ok hw ih

/-- The statements of one computation (R54, R89). -/
theorem assemble_computation (policy : PadPolicy) (ws : List Word) :
    assemble policy (.crcReset :: (ws.map fun w => Stmt.crcFeed w.toNat) ++ [.crcResult]) =
      .ok ((computation ws).map HostEvent.request) := by
  have hfeeds := assemble_crcFeed_words policy ws
  rw [assemble_append_ok (assemble_cons_ok rfl hfeeds) (assemble_cons_ok rfl rfl)]
  simp [computation]

theorem framedWords_zeroPad (buf : List Byte) : framedWords .zeroPad buf = .ok (frame (zeroPadded buf)) :=
  if_neg fun h => nomatch h.2

/-- `CRC.BUF` under ZERO_PAD is the computation over the padded buffer's words (R54, R87). -/
theorem expandStmt_crcBuf_zeroPad (bs : List Nat) :
    expandStmt .zeroPad (.crcBuf bs) =
      .ok ((computation (frame (zeroPadded (bs.map (BitVec.ofNat 8))))).map HostEvent.request) := by
  simp only [expandStmt, computeRequests, framedWords_zeroPad]

/-! ### The obligations -/

/-- Settles O4: the four constructors of the encoder are the four rows of the decoder. -/
theorem encodedInstructionsDecodeBack : Obligations.EncodedInstructionsDecodeBack :=
  ⟨decode_encode, decoded_request, decodeBytes_encodeBytes, fun _ _ => encode_of_decoded, ofDescriptor_descriptor⟩

/-- Settles O1: the decoder's legal rows, the read values, and a CR write's bit 0. -/
theorem descriptorsDecodeAsTheOpcodeMap : Obligations.DescriptorsDecodeAsTheOpcodeMap :=
  ⟨decode_eq_legal_iff, fun s => ⟨⟨_, rfl, rfl⟩, ⟨_, rfl, rfl⟩, fun d => (exec_wrCr_bit_zero d s).symm⟩⟩

/-- Settles O2: each class holds on its condition, and the conditions count the descriptors. -/
theorem illegalDescriptorsFallIntoFourClasses : Obligations.IllegalDescriptorsFallIntoFourClasses := by
  refine ⟨fun q d => ?_, fun d => ?_, fun impl r c s hp hf hd => transact_illegal_free impl hp hf.1 hd,
    rfl, rfl, rfl, rfl⟩
  · simp only [decode_eq_illegal_iff, classCondition, decide_eq_true_iff, and_self]
  · simp only [countP_decode_illegal, countP_decode_legal]
    decide

/-- Settles O60: each statement's range check and expansion, and the sequences by what each statement makes. -/
theorem assemblerExpandsItsStatements : Obligations.AssemblerExpandsItsStatements := by
  refine ⟨fun policy n hn => ?_, fun policy => ?_, fun n => ?_, by decide, fun policy n hn => ?_,
    fun policy size off n h16 => ?_, fun policy n => ?_, fun policy ws => ?_, fun bs hbs => ?_⟩
  · have hlit := (literalOk_iff n).mpr hn
    refine ⟨(assembleStmt_of_wellFormed (.wrDR n) hlit).trans (expandStmt_wrDR policy n),
      (assembleStmt_of_wellFormed (.wrCR n) hlit).trans (expandStmt_wrCR policy n),
      assembleStmt_of_wellFormed (.rdDR (some n)) hlit, fun size off hoff => assembleStmt_of_wellFormed _ ?_⟩
    rw [Stmt.wellFormed, (offsetOk_iff off).mpr hoff, hlit, Bool.and_self]
  · exact ⟨rfl, rfl, fun size off hoff => assembleStmt_of_wellFormed (.rdRaw size off) ((offsetOk_iff off).mpr hoff),
      fun n => rfl, rfl⟩
  · simp [Request.descriptor]
  · have hlit := literalOk_eq_false hn
    refine ⟨assembleStmt_of_not_wellFormed _ hlit, assembleStmt_of_not_wellFormed _ hlit,
      assembleStmt_of_not_wellFormed _ hlit, assembleStmt_of_not_wellFormed _ hlit,
      fun size off => assembleStmt_of_not_wellFormed _ ?_⟩
    rw [Stmt.wellFormed, hlit, Bool.and_false]
  · have hoff := offsetOk_eq_false h16
    refine ⟨assembleStmt_of_not_wellFormed _ ?_, assembleStmt_of_not_wellFormed _ hoff⟩
    rw [Stmt.wellFormed, hoff, Bool.false_and]
  · exact ⟨assembleStmt_congr rfl (expandStmt_wrDR policy n), assembleStmt_congr rfl (expandStmt_wrCR policy n),
      rfl, rfl⟩
  · exact ⟨rfl, rfl, fun w => rfl, assembleStmt_crcWords policy ws⟩
  · rw [assemble_computation, assembleStmt_of_wellFormed (.crcBuf bs) hbs, expandStmt_crcBuf_zeroPad]

/-- Settles O6, by evaluating the decoder on each word. -/
theorem specWordsDecode : Obligations.SpecWordsDecode := by
  unfold Obligations.SpecWordsDecode
  decide

/-- Settles O28: the word's request is at the head of the queue, and the step runs it as decoded. -/
theorem presentedWordRunsAsDecoded : Obligations.PresentedWordRunsAsDecoded := by
  intro s nbits w i hp ho hw
  obtain ⟨r, hr, hd⟩ := tableRequest_of_decodeTableWord hw
  rw [withFetchWord_of_tableRequest hr]
  calc step { s with pending := .request r :: s.pending }
      = transact Config.crcImpl r s := stepWith_event Config.params (ev := .request r) (rest := s.pending) rfl
    _ = exec i s := transact_legal_free _ hp ho hd

end Sys2Proof.Machine

/-! SUPPORT. The CRC core: a sequence of transactions and a serial write cycle by cycle, the step as arithmetic, the update as
a fold, as an XOR network, as a bijection, as a polynomial reduction and as the byte-wise CRC; from these the statements of
40_crc_core.md are settled. -/

namespace Sys2Proof.Machine

open Sys2Proof

variable {s t u : State} {form : SerialForm} {impl : CrcImpl} {r : Request} {d : Word}

/-! ### Cycles against the transaction model (R64, R78, R81, R126) -/

theorem runCycles_append_next {ps qs : List Pins} {out out' : List (Option Resp)}
    (h : runCycles impl ps s = .next (t, out)) (h' : runCycles impl qs t = .next (u, out')) :
    runCycles impl (ps ++ qs) s = .next (u, out ++ out') := by
  rw [runCycles_append, h, andThen_next, h', andThen_next]

/-- Idle cycles on a free port change the response ports only (R78). -/
theorem runCycles_idle (impl : CrcImpl) (n : Nat) (hp : s.power = .operational) (ho : s.outstanding = none) :
    ∃ v, runCycles impl (List.replicate n idlePins) s = .next ({ s with resp := v }, List.replicate n none) := by
  induction n generalizing s with
  | zero => exact ⟨s.resp, rfl⟩
  | succ n ih =>
    obtain ⟨v, hrun⟩ := ih (s := idle s) hp ho
    refine ⟨v, ?_⟩
    rw [List.replicate_succ, runCycles, tick_idle impl rfl rfl hp ho, andThen_next, hrun]
    rfl

/-- One transaction on a free port is R81's function on ACC. -/
theorem transact_eq_transactionModel (impl : CrcImpl) (hp : s.power = .operational) (ho : s.outstanding = none) :
    transact impl r s = .next { s with
      acc := (transactionModel s.acc r.descriptor r.wdata).1,
      resp := some (transactionModel s.acc r.descriptor r.wdata).2 } := by
  unfold transactionModel
  rw [show decode r.descriptor r.wdata = r.decoded from rfl]
  cases hd : r.decoded with
  | illegal c => exact transact_illegal_free impl hp ho hd
  | legal i =>
    rw [transact_legal_free impl hp ho hd]
    cases i with
    | wrDr d => rfl
    | rdDr => rfl
    | wrCr d => simp only [exec_wrCr_eq, resetBit_iff]
    | rdCr => rfl

/-- Idle cycles and then the cycles of one transaction: one response, R81's, and the port is free again. -/
theorem runCycles_gap_transaction (impl : CrcImpl) (n : Nat) (r : Request) (hp : s.power = .operational)
    (hf : s.portFree) :
    ∃ t out, runCycles impl (List.replicate n idlePins ++ transactionPins impl r) s = .next (t, out) ∧
      out.filterMap id = [(transactionModel s.acc r.descriptor r.wdata).2] ∧
      t.acc = (transactionModel s.acc r.descriptor r.wdata).1 ∧ t.power = .operational ∧ t.portFree := by
  obtain ⟨v, hidle⟩ := runCycles_idle impl n hp hf.1
  have ht := transact_eq_transactionModel (s := { s with resp := v }) (r := r) impl hp hf.1
  exact ⟨_, _, runCycles_append_next hidle (runCycles_transactionPins hp hf ht rfl), by simp, rfl, hp, hf⟩

/-! ### A serial write cycle by cycle (R63, R65) -/

/-- ACC after `k` cycles of a serial write of `d`: `k` steps after the XOR, or `k` bits of `d` shifted in. -/
def serialAccAfter (form : SerialForm) (k : Nat) (acc d : Word) : Word :=
  match form with
  | .xorShift => crcSteps k (acc ^^^ d)
  | .bitInput => lfsrSteps k acc d

theorem lfsrSteps_succ_last (n : Nat) (acc d : Word) :
    lfsrSteps (n + 1) acc d = lfsrStep (lfsrSteps n acc d) (d <<< n)[31] := by
  induction n generalizing acc d with
  | zero => simp [lfsrSteps]
  | succ n ih => rw [lfsrSteps_succ, ih, ← lfsrSteps_succ, ← BitVec.shiftLeft_add, Nat.add_comm 1 n]

/-- Both serial datapaths have done the word update after 32 cycles (R64). -/
theorem serialAccAfter_whole (form : SerialForm) (acc d : Word) : serialAccAfter form 32 acc d = crcUpdate acc d := by
  cases form with
  | xorShift => rfl
  | bitInput => exact lfsrUpdate_eq_crcUpdate acc d

theorem serialAcc_first (form : SerialForm) (d : Word) (hf : s.portFree) :
    serialAcc form d s = serialAccAfter form 1 s.acc d := by
  cases form with
  | xorShift => simp [serialAcc, serialAccAfter, hf.2.1, crcSteps_succ]
  | bitInput => simp [serialAcc, serialAccAfter, hf.2.1, lfsrSteps]

/-- A further cycle adds one step, because what is in the data shift register is `d` without the bits already taken. -/
theorem State.Writing.serialAcc_eq {k : Nat} {acc : Word} (h : s.Writing form r d) (hk : s.shiftCnt.val = 32 - k)
    (hk' : k ≤ 32) (ha : s.acc = serialAccAfter form k acc d) :
    serialAcc form d s = serialAccAfter form (k + 1) acc d := by
  obtain ⟨hc, -, hdata⟩ := h.shifting
  cases form with
  | xorShift => rw [serialAcc, if_neg hc, ha]; exact (crcSteps_succ_last k _).symm
  | bitInput =>
    have hdata : s.dataShift = d <<< k := by rw [show s.dataShift = _ from hdata, hk, Nat.sub_sub_self hk']
    simp only [serialAcc, if_neg hc, ha, hdata]
    exact (lfsrSteps_succ_last k acc d).symm

/-- The wait states of a serial write: each has taken one shift more, and the write is outstanding. -/
theorem runCycles_wait_states (form : SerialForm) (k : Nat) (hp : s.power = .operational) (hf : s.portFree)
    (hd : r.decoded = .legal (.wrDr d)) (hk : k < 31) :
    ∃ t, runCycles (.serial form) (List.replicate (k + 1) (holdPins r)) s =
        .next (t, List.replicate (k + 1) none) ∧
      t.Writing form r d ∧ t.shiftCnt.val = 32 - (k + 1) ∧ t.acc = serialAccAfter form (k + 1) s.acc d := by
  induction k with
  | zero =>
    have hw : (serialEdge form r d s).Writing form r d := serialEdge_first_writing hp hf hd
    refine ⟨_, ?_, hw, by simp [serialShiftCnt, hf.2.1], serialAcc_first form d hf⟩
    have htick : tick (.serial form) (holdPins r) s = .next (serialEdge form r d s) :=
      (tick_serve _ rfl rfl hp (.inl hf.1)).trans (serveCycle_of_wrDr _ hd s)
    rw [List.replicate_succ, runCycles, htick, andThen_next, hw.resp_eq_none]
    rfl
  | succ k ih =>
    obtain ⟨t, hrun, hw, hcnt, hacc⟩ := ih (by omega)
    have hw' := hw.serialEdge_writing fun h1 => by rw [h1, Fin.val_one] at hcnt; omega
    refine ⟨serialEdge form r d t, ?_, hw', ?_, hw.serialAcc_eq hcnt (by omega) hacc⟩
    · rw [List.replicate_succ' (n := k + 1), List.replicate_succ' (n := k + 1)]
      refine runCycles_append_next hrun ?_
      rw [runCycles, hw.tick_eq, andThen_next, hw'.resp_eq_none]
      rfl
    · rw [serialEdge_shiftCnt, serialShiftCnt_val hw.shiftCnt_ne_zero, hcnt]
      omega

/-- R63's table for either serial datapath: the state after `k` of the 32 cycles, and the responses up to there. -/
theorem runCycles_serial_write_prefix (form : SerialForm) {k : Nat} (hp : s.power = .operational) (hf : s.portFree)
    (hd : r.decoded = .legal (.wrDr d)) (hk : 1 ≤ k) (hk' : k ≤ 32) :
    ∃ t, runCycles (.serial form) (List.replicate k (holdPins r)) s =
        .next (t, List.replicate (k - 1) none ++ [if k = 32 then some (.ok 0x00000000#32) else none]) ∧
      t.acc = serialAccAfter form k s.acc d ∧ t.shiftCnt.val = 32 - k ∧
      t.outstanding = if k = 32 then none else some r := by
  obtain rfl | hlt := Nat.eq_or_lt_of_le hk'
  · refine ⟨_, runCycles_serial_write form hp hf hd, ?_, by simp [hf.2.1], by simp [hf.1]⟩
    rw [respondOk_acc, writeDR_acc, serialAccAfter_whole]
  · obtain ⟨k, rfl⟩ : ∃ n, k = n + 1 := ⟨k - 1, by omega⟩
    obtain ⟨t, hrun, hw, hcnt, hacc⟩ := runCycles_wait_states form k hp hf hd (by omega)
    refine ⟨t, ?_, hacc, hcnt, by rw [if_neg hlt.ne, hw.outstanding]⟩
    rw [hrun, if_neg hlt.ne, Nat.add_sub_cancel, ← List.replicate_succ']

/-! ### The step as arithmetic on the number (R57) -/

theorem getElem_31_eq (x : Word) : x[31] = decide (2 ^ 31 ≤ x.toNat) := by
  rw [← BitVec.getLsbD_eq_getElem, ← BitVec.msb_eq_decide (w := 32), BitVec.msb_eq_getLsbD_last]

theorem crcStep_toNat (x : Word) : (crcStep x).toNat =
    if 2 ^ 31 ≤ x.toNat then (2 * x.toNat % 2 ^ 32) ^^^ 0x04C11DB7 else 2 * x.toNat % 2 ^ 32 := by
  have hdouble : (x <<< 1).toNat = 2 * x.toNat % 2 ^ 32 := by
    rw [BitVec.toNat_shiftLeft, Nat.shiftLeft_eq, Nat.mul_comm, pow_one]
  simp only [crcStep, getElem_31_eq, decide_eq_true_iff]
  split
  · rw [BitVec.toNat_xor, hdouble]
    rfl
  · exact hdouble

/-- The step as a shift and an XOR that is there or not. -/
theorem crcStep_eq_shift_xor (x : Word) : crcStep x = (x <<< 1) ^^^ (if x[31] then Config.poly else 0#32) := by
  unfold crcStep
  split
  · rfl
  · rw [BitVec.xor_zero]

theorem lfsrStep_eq_shift_xor (acc : Word) (b : Bool) :
    lfsrStep acc b = (acc <<< 1) ^^^ (if acc[31] ^^ b then 0x04C11DB7#32 else 0#32) := by
  unfold lfsrStep
  split
  · rfl
  · rw [BitVec.xor_zero]

/-! ### The update as a fold, over words and over bits (R60, R61, R65) -/

theorem crcWords_eq_foldl (acc : Word) (ws : List Word) : crcWords acc ws = ws.foldl crcUpdate acc := by
  induction ws generalizing acc with
  | nil => rfl
  | cons w ws ih => exact ih _

theorem checksum_eq_foldl (ws : List Word) : checksum ws = ws.foldl crcUpdate Config.init := by
  rw [checksum, crcOutput_eq, crcWords_eq_foldl]

/-- The data shift register hands over the data bits from bit 31 down. -/
theorem lfsrSteps_eq_foldl {n : Nat} (hn : n ≤ 32) (acc d : Word) :
    lfsrSteps n acc d = (List.range n).foldl (fun a k => lfsrStep a (d.getLsbD (31 - k))) acc := by
  induction n with
  | zero => rfl
  | succ n ih =>
    have hbit : (d <<< n)[31] = d.getLsbD (31 - n) := by
      rw [← BitVec.getLsbD_eq_getElem, BitVec.getLsbD_shiftLeft]
      simp [show n ≤ 31 by omega]
    rw [lfsrSteps_succ_last, ih (by omega), hbit, List.range_succ, List.foldl_append]
    rfl

/-! ### The update as an XOR network (R66) -/

/-- The XOR over a list of two bit functions' XOR. -/
theorem foldl_xor_xor (f g : Nat → Bool) (is : List Nat) (p q : Bool) :
    is.foldl (fun p i => xor p (xor (f i) (g i))) (xor p q) =
      xor (is.foldl (fun p i => xor p (f i)) p) (is.foldl (fun p i => xor p (g i)) q) := by
  induction is generalizing p q with
  | nil => rfl
  | cons i is ih =>
    rw [List.foldl_cons, List.foldl_cons, List.foldl_cons, ← ih, Bool.xor_assoc, Bool.xor_left_comm q, ← Bool.xor_assoc]

theorem xor_and_distrib (x y m : Word) : (x ^^^ y) &&& m = (x &&& m) ^^^ (y &&& m) := by
  ext i hi
  simp [Bool.and_xor_distrib_right]

theorem parity_xor (x y : Word) : parity (x ^^^ y) = xor (parity x) (parity y) := by
  simp only [parity, BitVec.getLsbD_xor]
  exact foldl_xor_xor x.getLsbD y.getLsbD _ false false

theorem parity_zero : parity 0#32 = false := by
  simp [parity]

theorem parity_twoPow {i : Nat} (hi : i < 32) : parity (BitVec.twoPow 32 i) = true := by
  simp only [parity, BitVec.getLsbD_twoPow, hi]
  interval_cases i <;> rfl

/-- The parity of a masked single bit is the mask's bit. -/
theorem parity_twoPow_and {i : Nat} (hi : i < 32) (m : Word) : parity (BitVec.twoPow 32 i &&& m) = m.getLsbD i := by
  rw [BitVec.twoPow_and]
  cases m.getLsbD i with
  | false => exact parity_zero
  | true => exact parity_twoPow hi

set_option maxRecDepth 100000 in
/-- The table of R66, by evaluating its 32 rows at 32 bits: MASK[j] has bit i where the image of the unit value of bit i has
bit j. -/
theorem crcMask_getLsbD : ∀ i < 32, ∀ j < 32,
    (crcMask.getD j 0#32).getLsbD i = (crcSteps 32 (1#32 <<< i)).getLsbD j := by
  decide

/-- Each output bit is a parity: true of single bits by the table, and both sides are linear. -/
theorem crcSteps_getLsbD_eq_parity (v : Word) :
    ∀ j < 32, (crcSteps 32 v).getLsbD j = parity (v &&& crcMask.getD j 0#32) := by
  induction v using word_xor_induction with
  | h0 =>
    intro j _
    rw [crcSteps_zero_word, BitVec.zero_and, parity_zero, BitVec.getLsbD_zero]
  | hx a b ha hb =>
    intro j hj
    rw [crcSteps_xor, BitVec.getLsbD_xor, ha j hj, hb j hj, ← parity_xor, xor_and_distrib]
  | hb i hi =>
    intro j hj
    rw [← crcMask_getLsbD i hi j hj, ← BitVec.twoPow_eq, parity_twoPow_and hi]

/-- Bit n set where the flag says so. -/
theorem getLsbD_set_bit (out : Word) (b : Bool) (n j : Nat) :
    (if b then out ||| (1#32 <<< n) else out).getLsbD j =
      (out.getLsbD j || (decide (j < 32) && (decide (j = n) && b))) := by
  cases b with
  | false => simp
  | true =>
    rw [if_pos rfl, ← BitVec.twoPow_eq, BitVec.getLsbD_or, BitVec.getLsbD_twoPow]
    obtain rfl | hj := eq_or_ne j n
    · simp
    · simp [hj, hj.symm]

/-- Setting bits one by one. -/
theorem getLsbD_foldl_set_bits (f : Nat → Bool) (n j : Nat) :
    ((List.range n).foldl (fun out j => if f j then out ||| (1#32 <<< j) else out) 0#32).getLsbD j =
      (decide (j < 32) && (decide (j < n) && f j)) := by
  induction n with
  | zero => simp
  | succ n ih =>
    rw [List.range_succ, List.foldl_append, List.foldl_cons, List.foldl_nil, getLsbD_set_bit, ih,
      ← Bool.and_or_distrib_left]
    congr 1
    by_cases hj : j = n
    · simp [hj]
    · simp [hj, Nat.lt_iff_le_and_ne]

theorem crcNetwork_eq_crcSteps (v : Word) : crcNetwork v = crcSteps 32 v := by
  apply BitVec.eq_of_getLsbD_eq
  intro j hj
  rw [crcNetwork, getLsbD_foldl_set_bits, crcSteps_getLsbD_eq_parity v j hj]
  simp [hj]

/-! ### The update as a bijection (R68) -/

/-- Shifting out and back loses bit 31 only. -/
theorem shiftLeft_ushiftRight_one (x : Word) : (x <<< 1) >>> 1 ||| (if x[31] then 0x80000000#32 else 0#32) = x := by
  ext i hi
  have hbit : (if x[31] then 0x80000000#32 else 0#32)[i] = (x[31] && decide (31 = i)) := by
    rw [show 0x80000000#32 = BitVec.twoPow 32 31 from rfl]
    cases x[31] <;> simp [BitVec.getElem_twoPow, eq_comm]
  rw [BitVec.getElem_or, hbit, BitVec.getElem_ushiftRight, BitVec.getLsbD_shiftLeft]
  obtain rfl | hlt := Nat.eq_or_lt_of_le (Nat.le_of_lt_succ hi)
  · simp
  · simp [hlt.ne', show 1 + i < 32 by omega, BitVec.getLsbD_eq_getElem hi]

/-- POLY has bit 0 set, so bit 0 of the step tells what bit 31 was, and the shift back restores the rest (R68 (c)). -/
theorem crcStepInv_crcStep (x : Word) : crcStepInv (crcStep x) = x := by
  have hback := shiftLeft_ushiftRight_one x
  unfold crcStepInv crcStep
  cases hx : x[31] with
  | false => simpa [hx] using hback
  | true => simpa [hx, Config.poly, BitVec.xor_assoc] using hback

theorem crcStep_bijective : Function.Bijective crcStep :=
  have hinj := Function.LeftInverse.injective crcStepInv_crcStep
  ⟨hinj, Finite.injective_iff_surjective.mp hinj⟩

theorem crcStep_crcStepInv (x : Word) : crcStep (crcStepInv x) = x :=
  Function.LeftInverse.rightInverse_of_surjective crcStepInv_crcStep crcStep_bijective.surjective x

theorem crcSteps_bijective (n : Nat) : Function.Bijective (crcSteps n) := by
  rw [← funext (crcStep_iterate n)]
  exact crcStep_bijective.iterate n

theorem crcUpdate_word_bijective (a : Word) : Function.Bijective fun w => crcUpdate a w :=
  have hxor : Function.Involutive (a ^^^ ·) := fun w => by
    simp only [← BitVec.xor_assoc, BitVec.xor_self, BitVec.zero_xor]
  (crcSteps_bijective 32).comp hxor.bijective

theorem crcUpdate_comm (a w : Word) : crcUpdate a w = crcUpdate w a := by
  rw [crcUpdate, BitVec.xor_comm]
  rfl

theorem crcUpdate_acc_bijective (w : Word) : Function.Bijective fun a => crcUpdate a w := by
  simpa only [crcUpdate_comm w] using crcUpdate_word_bijective w

theorem crcWords_injective (ws : List Word) : Function.Injective fun acc => crcWords acc ws := by
  induction ws with
  | nil => exact fun _ _ h => h
  | cons w ws ih => exact ih.comp (crcUpdate_acc_bijective w).injective

theorem crcWords_replicate_zero (n : Nat) : crcWords 0#32 (List.replicate n 0#32) = 0#32 := by
  induction n with
  | zero => rfl
  | succ n ih => rw [List.replicate_succ, crcWords, crcUpdate_self, ih]

/-- Changing one word changes the result. -/
theorem crcWords_ne_of_word_ne {w w' : Word} (h : w ≠ w') (acc : Word) (before after : List Word) :
    crcWords acc (before ++ w :: after) ≠ crcWords acc (before ++ w' :: after) := by
  rw [crcWords_append, crcWords_append, crcWords, crcWords]
  exact fun he => h ((crcUpdate_word_bijective _).injective (crcWords_injective after he))

theorem crcUpdate_init_zero : crcUpdate Config.init 0#32 = 0xC704DD7B#32 := by
  simp [crcUpdate, crcSteps, crcStep, Config.poly, Config.init]

/-! ### The update as polynomial reduction (R58, R67) -/

section

open Polynomial

/-- Bit i of a value as the coefficient of x^i (R67). -/
noncomputable def wordPoly (v : Word) : (ZMod 2)[X] := ∑ i ∈ Finset.range 32, if v.getLsbD i then X ^ i else 0

/-- The generator of R58. -/
noncomputable def generator : (ZMod 2)[X] :=
  X ^ 32 + X ^ 26 + X ^ 23 + X ^ 22 + X ^ 16 + X ^ 12 + X ^ 11 + X ^ 10 + X ^ 8 + X ^ 7 + X ^ 5 + X ^ 4 + X ^ 2 + X + 1

theorem wordPoly_zero : wordPoly 0#32 = 0 := by
  simp [wordPoly]

theorem wordPoly_xor (v w : Word) : wordPoly (v ^^^ w) = wordPoly v + wordPoly w := by
  rw [wordPoly, wordPoly, wordPoly, ← Finset.sum_add_distrib]
  refine Finset.sum_congr rfl fun i _ => ?_
  rw [BitVec.getLsbD_xor]
  cases v.getLsbD i <;> cases w.getLsbD i <;> simp [CharTwo.add_self_eq_zero]

theorem wordPoly_degree_lt (v : Word) : (wordPoly v).degree < 32 := by
  refine Polynomial.mem_degreeLT.mp (Submodule.sum_mem _ fun i hi => Polynomial.mem_degreeLT.mpr ?_)
  split
  · rw [degree_X_pow]
    exact_mod_cast Finset.mem_range.mp hi
  · rw [degree_zero]; exact WithBot.bot_lt_coe _

/-- POLY is the generator without its leading term (R58). -/
theorem generator_eq : generator = X ^ 32 + wordPoly Config.poly := by
  simp [generator, wordPoly, Config.poly, Finset.sum_range_succ]
  ring

theorem generator_monic : generator.Monic := by
  rw [generator_eq]
  exact monic_X_pow_add (wordPoly_degree_lt _)

theorem generator_degree : generator.degree = 32 := by
  rw [generator_eq, degree_add_eq_left_of_degree_lt] <;> rw [degree_X_pow]
  · rfl
  · exact wordPoly_degree_lt _

/-- The values are the polynomials that the reduction leaves alone. -/
theorem wordPoly_modByMonic (v : Word) : wordPoly v %ₘ generator = wordPoly v := by
  rw [modByMonic_eq_self_iff generator_monic, generator_degree]
  exact wordPoly_degree_lt v

/-- A shift multiplies by x, but for what leaves at bit 31. -/
theorem wordPoly_shiftLeft (v : Word) : wordPoly (v <<< 1) + (if v[31] then X ^ 32 else 0) = wordPoly v * X := by
  have hlow : wordPoly (v <<< 1) = ∑ i ∈ Finset.range 31, (if v.getLsbD i then X ^ i else 0) * X := by
    rw [wordPoly, Finset.sum_range_succ', show (v <<< 1).getLsbD 0 = false by simp, if_neg Bool.false_ne_true, add_zero]
    refine Finset.sum_congr rfl fun i hi => ?_
    rw [BitVec.getLsbD_shiftLeft, ite_mul, zero_mul, ← pow_succ]
    simp [show i + 1 < 32 from Nat.succ_lt_succ (Finset.mem_range.mp hi)]
  rw [hlow, wordPoly, Finset.sum_range_succ _ 31, add_mul, Finset.sum_mul, BitVec.getLsbD_eq_getElem (by decide), ite_mul,
    zero_mul, ← pow_succ]

/-- The step takes away the generator where bit 31 was set. -/
theorem wordPoly_crcStep_add (v : Word) :
    wordPoly (crcStep v) + generator * (if v[31] then 1 else 0) = wordPoly v * X := by
  rw [← wordPoly_shiftLeft, crcStep_eq_shift_xor, wordPoly_xor, add_assoc]
  congr 1
  cases v[31] with
  | false => simp [wordPoly_zero]
  | true => simp [generator_eq, add_left_comm, CharTwo.add_self_eq_zero]

theorem wordPoly_crcStep (v : Word) : wordPoly (crcStep v) = wordPoly v * X %ₘ generator := by
  refine ((div_modByMonic_unique _ _ generator_monic ⟨wordPoly_crcStep_add v, ?_⟩).2).symm
  rw [generator_degree]
  exact wordPoly_degree_lt _

theorem wordPoly_crcSteps (n : Nat) (v : Word) : wordPoly (crcSteps n v) = wordPoly v * X ^ n %ₘ generator := by
  induction n generalizing v with
  | zero => rw [crcSteps_zero, pow_zero, mul_one, wordPoly_modByMonic]
  | succ n ih =>
    calc wordPoly (crcSteps n (crcStep v))
        = wordPoly (crcStep v) * X ^ n %ₘ generator := ih _
      _ = (wordPoly v * X %ₘ generator) * (X ^ n %ₘ generator) %ₘ generator := by
        rw [mul_modByMonic, wordPoly_modByMonic, wordPoly_crcStep]
      _ = wordPoly v * X ^ (n + 1) %ₘ generator := by rw [← mul_modByMonic, mul_assoc, ← pow_succ']

end

/-! ### The update as the byte-wise CRC (R69) -/

/-- While a byte stays below bit 31, the steps only shift it. -/
theorem crcSteps_byte (b : Byte) (n k : Nat) (h : n + k ≤ 24) :
    crcSteps n (b.setWidth 32 <<< k) = b.setWidth 32 <<< (k + n) := by
  induction n generalizing k with
  | zero => rfl
  | succ n ih =>
    have hbit : (b.setWidth 32 <<< k)[31] = false := by
      rw [← BitVec.getLsbD_eq_getElem, BitVec.getLsbD_shiftLeft, BitVec.getLsbD_setWidth, BitVec.getLsbD_of_ge b _ (by omega)]
      simp
    rw [crcSteps_succ, crcStep, hbit, if_neg Bool.false_ne_true, ← BitVec.shiftLeft_add, ih (k + 1) (by omega)]
    congr 1
    omega

/-- A word is its four bytes side by side. -/
theorem wordOfBytes_eq_xor (b0 b1 b2 b3 : Byte) : wordOfBytes b0 b1 b2 b3 =
    b3.setWidth 32 <<< 24 ^^^ b2.setWidth 32 <<< 16 ^^^ b1.setWidth 32 <<< 8 ^^^ b0.setWidth 32 <<< 0 := by
  ext i hi
  rw [wordOfBytes_getElem _ _ _ _ i hi]
  grind

/-- A byte fed after `m` steps is a byte XORed in `m` places lower before them. -/
theorem bytewiseUpdate_crcSteps {m : Nat} (hm : m ≤ 24) (a : Word) (b : Byte) :
    bytewiseUpdate (crcSteps m a) b = crcSteps (m + 8) (a ^^^ b.setWidth 32 <<< (24 - m)) := by
  rw [bytewiseUpdate, crcSteps_add, crcSteps_xor m, crcSteps_byte b m _ (by omega), Nat.sub_add_cancel hm]

/-- R69 for one word. -/
theorem crcUpdate_wordOfBytes (acc : Word) (b0 b1 b2 b3 : Byte) :
    crcUpdate acc (wordOfBytes b0 b1 b2 b3) = [b3, b2, b1, b0].foldl bytewiseUpdate acc := by
  simp only [List.foldl_cons, List.foldl_nil]
  rw [← crcSteps_zero acc, bytewiseUpdate_crcSteps (by decide), bytewiseUpdate_crcSteps (by decide),
    bytewiseUpdate_crcSteps (by decide), bytewiseUpdate_crcSteps (by decide), crcUpdate, wordOfBytes_eq_xor]
  simp only [crcSteps_zero, BitVec.xor_assoc]

theorem wordOfBytes_inj {b0 b1 b2 b3 c0 c1 c2 c3 : Byte} :
    wordOfBytes b0 b1 b2 b3 = wordOfBytes c0 c1 c2 c3 ↔ b0 = c0 ∧ b1 = c1 ∧ b2 = c2 ∧ b3 = c3 := by
  refine ⟨fun h => ?_, fun ⟨h0, h1, h2, h3⟩ => by rw [h0, h1, h2, h3]⟩
  obtain ⟨hb0, hb1, hb2, hb3⟩ := byteLane_wordOfBytes b0 b1 b2 b3
  obtain ⟨hc0, hc1, hc2, hc3⟩ := byteLane_wordOfBytes c0 c1 c2 c3
  rw [h] at hb0 hb1 hb2 hb3
  exact ⟨hb0.symm.trans hc0, hb1.symm.trans hc1, hb2.symm.trans hc2, hb3.symm.trans hc3⟩

theorem checksum_frame (buf : List Byte) : checksum (frame buf) =
    bytewiseCrc ((List.range (buf.length / 4)).flatMap fun i =>
      [buf.getD (4 * i + 3) 0#8, buf.getD (4 * i + 2) 0#8, buf.getD (4 * i + 1) 0#8, buf.getD (4 * i) 0#8]) := by
  rw [checksum_eq_foldl, frame, List.foldl_map, bytewiseCrc, List.foldl_flatMap]
  simp only [← crcUpdate_wordOfBytes]
  rfl

/-- The catalogue's check value, over "123456789". -/
theorem bytewiseCrc_check :
    bytewiseCrc [0x31#8, 0x32#8, 0x33#8, 0x34#8, 0x35#8, 0x36#8, 0x37#8, 0x38#8, 0x39#8] = 0x0376E6E7#32 := by
  simp [bytewiseCrc, bytewiseUpdate, crcSteps, crcStep, Config.poly, Config.init]

/-- For one word the two agree exactly where the word is palindromic. -/
theorem checksum_frame_four_eq_iff (b0 b1 b2 b3 : Byte) :
    checksum (frame [b0, b1, b2, b3]) = bytewiseCrc [b0, b1, b2, b3] ↔ b0 = b3 ∧ b1 = b2 := by
  rw [frame_four, checksum_eq_foldl, bytewiseCrc, ← crcUpdate_wordOfBytes, List.foldl_cons, List.foldl_nil,
    (crcUpdate_word_bijective _).injective.eq_iff, wordOfBytes_inj]
  constructor
  · rintro ⟨h0, h1, -, -⟩
    exact ⟨h0, h1⟩
  · rintro ⟨rfl, rfl⟩
    exact ⟨rfl, rfl, rfl, rfl⟩

/-! ### The obligations -/

/-- Settles O41, by induction on the transactions: each leaves the port free with R81's ACC, so the next one starts there. -/
theorem cycleRunsFollowTheTransactionModel : Obligations.CycleRunsFollowTheTransactionModel := by
  intro impl gaps s hp hf
  induction gaps generalizing s with
  | nil => exact ⟨s, [], rfl, rfl, rfl, hf⟩
  | cons g gaps ih =>
    obtain ⟨u, out, hfirst, hresp, hacc, hpu, hfu⟩ := runCycles_gap_transaction impl g.1 g.2 hp hf
    obtain ⟨t, out', hrest, hresp', hacc', hft⟩ := ih u hpu hfu
    rw [hacc] at hresp' hacc'
    refine ⟨t, out ++ out', ?_, ?_, hacc', hft⟩
    · rw [List.flatMap_cons]
      exact runCycles_append_next hfirst hrest
    · rw [List.filterMap_append, hresp, hresp']
      rfl

/-- Settles O9: `crcWords` is the fold, and the output stage changes nothing. -/
theorem checksumFoldsTheWordsFromInit : Obligations.ChecksumFoldsTheWordsFromInit := by
  refine ⟨crcWords_eq_foldl, checksum_eq_foldl, checksum_eq_foldl [], fun ws s hs => ⟨respondOk s.acc s, rfl, ?_⟩⟩
  rw [respondOk_resp, hs, checksum, crcOutput_eq]

/-- Settles O10: a linear map is its network once the table holds the images of the single bits. -/
theorem updateIsTheXorNetwork : Obligations.UpdateIsTheXorNetwork := by
  simp only [Obligations.UpdateIsTheXorNetwork, crcStep_iterate]
  exact ⟨crcStep_xor, fun a w => crcSteps_xor 32 a w, crcSteps_getLsbD_eq_parity,
    fun i j hi hj => crcMask_getLsbD i hi j hj, fun a d => (crcNetwork_eq_crcSteps (a ^^^ d)).symm⟩

/-- Settles O11: 32 steps are 32 multiplications by x, each reduced. -/
theorem updateIsPolynomialReduction : Obligations.UpdateIsPolynomialReduction :=
  ⟨wordPoly_crcStep, fun a w => wordPoly_crcSteps 32 (a ^^^ w)⟩

/-- Settles O12: the step has a left inverse, so it and the update built from it are bijections. -/
theorem updateIsABijectionInEachArgument : Obligations.UpdateIsABijectionInEachArgument :=
  ⟨crcUpdate_self, crcWords_replicate_zero, fun x => ⟨crcStepInv_crcStep x, crcStep_crcStepInv x⟩,
    crcUpdate_word_bijective, crcUpdate_acc_bijective, fun acc _ _ before after h => crcWords_ne_of_word_ne h acc before after,
    crcUpdate_self _, crcUpdate_init_zero, (crcStep_iterate 32 Config.init).trans crcUpdate_init_zero⟩

/-- Settles O13: the bits shifted in one by one are `lfsrSteps`, which the bit-input datapath takes cycle by cycle. -/
theorem bitInputFormGivesTheWordUpdate : Obligations.BitInputFormGivesTheWordUpdate := by
  unfold Obligations.BitInputFormGivesTheWordUpdate
  intro shiftIn
  have hshift {n : Nat} (hn : n ≤ 32) (acc d : Word) : (List.range n).foldl (shiftIn d) acc = lfsrSteps n acc d := by
    rw [lfsrSteps_eq_foldl hn]
    exact congrArg (fun f => (List.range n).foldl f acc) (funext₂ fun a k => (lfsrStep_eq_shift_xor a _).symm)
  refine ⟨fun acc d => (hshift le_rfl acc d).trans (lfsrUpdate_eq_crcUpdate acc d), fun r d s k hp hf hd hk hk' => ?_⟩
  obtain ⟨t, hrun, hacc, hcnt, -⟩ := runCycles_serial_write_prefix .bitInput hp hf hd hk hk'
  exact ⟨t, hrun, hacc.trans (hshift hk' s.acc d).symm, hcnt⟩

/-- Settles O14: word by word, and for one word by the update being injective in the word. -/
theorem checksumIsTheBytewiseCrcOfReversedWords : Obligations.ChecksumIsTheBytewiseCrcOfReversedWords :=
  ⟨fun buf _ => checksum_frame buf, bytewiseCrc_check, fun b0 b1 b2 b3 => (checksum_frame_four_eq_iff b0 b1 b2 b3).not⟩

/-- Settles O39: R63's table of a serial write, and the latency of what is none. -/
theorem serialWriteShiftsOncePerCycle : Obligations.SerialWriteShiftsOncePerCycle := by
  refine ⟨fun r d s k hp hf hd hk hk' => ?_, fun form r hne => ?_⟩
  · obtain ⟨t, hrun, hacc, hcnt, ho⟩ := runCycles_serial_write_prefix .xorShift hp hf hd hk hk'
    exact ⟨t, hrun, hacc.trans (crcStep_iterate k _).symm, hcnt, ho⟩
  · obtain hl | ⟨-, d, -, hd⟩ := latency_eq_one_or_serial_write (.serial form) r
    · exact hl
    · exact absurd hd (hne d)

/-- Settles O7: a shift by one doubles, and bit 31 is set from 2^31 on. -/
theorem stepShiftsThenFoldsThePolynomial : Obligations.StepShiftsThenFoldsThePolynomial :=
  ⟨crcStep_toNat, by decide, by decide, by decide, by decide⟩

/-- Settles O8: the iterate's first step is the shift that bit 31 of `acc ^^^ w` decides. -/
theorem wordUpdateIsThirtyTwoSteps : Obligations.WordUpdateIsThirtyTwoSteps := by
  have hiter (acc w : Word) : crcUpdate acc w = crcStep^[32] (acc ^^^ w) := (crcStep_iterate 32 _).symm
  refine ⟨hiter, fun acc w => ?_⟩
  rw [hiter, Function.iterate_succ_apply, crcStep_eq_shift_xor, BitVec.getElem_xor]
  rfl

end Sys2Proof.Machine

/-! SUPPORT. Register access: what each of the four instructions leaves in ACC and answers, transactions that come after
a cycle or a request with no effect, and runs of transactions; from these the statements of 41_register_access.md are
settled. -/

namespace Sys2Proof.Machine

open Sys2Proof

variable {s t : State} {impl : CrcImpl} {r : Request} {d : Word}

/-! ### What an instruction answers (R71, R73, R75, R77) -/

theorem acc_of_exec_wrDr (h : exec (.wrDr d) s = .next t) : t.acc = crcUpdate s.acc d := by
  cases h; rfl

theorem resp_of_exec_rdDr (h : exec .rdDr s = .next t) : t.resp = some (.ok s.acc) := by
  cases h; rfl

theorem acc_of_exec_wrCr (h : exec (.wrCr d) s = .next t) :
    t.acc = if d.toNat % 2 = 1 then Config.init else s.acc := by
  rw [exec_wrCr_eq] at h
  cases h; rfl

theorem resp_of_exec_rdCr (h : exec .rdCr s = .next t) : t.resp = some (.ok 0x00000000#32) := by
  cases h; rfl

theorem acc_of_exec_wrCr_odd (hd : d.toNat % 2 = 1) (h : exec (.wrCr d) s = .next t) : t.acc = Config.init :=
  (acc_of_exec_wrCr h).trans (if_pos hd)

/-- Feeding the zero word is the bare network on ACC (R66). -/
theorem crcUpdate_zero_word (acc : Word) : crcUpdate acc 0#32 = crcNetwork acc := by
  rw [crcUpdate, BitVec.xor_zero, crcNetwork_eq_crcSteps]

/-- R71's example: the word 0x12345678 after a reset. -/
theorem crcUpdate_init_example : crcUpdate Config.init 0x12345678#32 = 0xDF8A8A2B#32 := by
  simp [crcUpdate, crcSteps, crcStep, Config.poly, Config.init]

/-! ### What leaves later transactions as they were (R78, R80) -/

/-- A transaction on a free port does not look at the last response. -/
theorem transact_resp (impl : CrcImpl) (r : Request) (hp : s.power = .operational) (ho : s.outstanding = none)
    (v : Option Resp) : transact impl r { s with resp := v } = transact impl r s := by
  rw [transact_eq_transactionModel (s := { s with resp := v }) impl hp ho, transact_eq_transactionModel impl hp ho]

/-- Where REQ_VALID is 0, an edge does not look at the other request ports. -/
theorem tick_without_request (impl : CrcImpl) (r : Request) (s : State) :
    tick impl ⟨false, false, r⟩ s = tick impl idlePins s := by
  simp [tick, tickRunning, idlePins]

theorem runCycles_replicate_congr {p q : Pins} (h : ∀ s, tick impl p s = tick impl q s) (n : Nat) (s : State) :
    runCycles impl (List.replicate n p) s = runCycles impl (List.replicate n q) s := by
  induction n generalizing s with
  | zero => rfl
  | succ n ih => simp only [List.replicate_succ, runCycles, h, ih]

/-! ### The obligations -/

/-- Settles O29, by induction on the requests: each transaction is R81's function on ACC and leaves the port free. -/
theorem runsFollowTheTransactionModel : Obligations.RunsFollowTheTransactionModel := by
  intro impl rs s hp hf
  induction rs generalizing s with
  | nil => exact ⟨s, rfl, rfl, hp, hf⟩
  | cons r rs ih =>
    have hr := transact_eq_transactionModel (r := r) impl hp hf.1
    obtain ⟨t, hrun, hacc, hpt, hft⟩ := ih { s with
      acc := (transactionModel s.acc r.descriptor r.wdata).1,
      resp := some (transactionModel s.acc r.descriptor r.wdata).2 } hp hf
    exact ⟨t, runRequests_cons_next hr rfl hrun, hacc, hpt, hft⟩

/-- Settles O15: the instruction is `writeDR` with the response OK(0), and its cases are those of the update. -/
theorem wrDrFeedsTheWord : Obligations.WrDrFeedsTheWord := by
  refine ⟨fun d => (decode_eq_legal_iff _ d _).mpr (.inl ⟨rfl, rfl⟩), fun d s => rfl,
    fun s t h => (acc_of_exec_wrDr h).trans (crcUpdate_self s.acc), fun s t h => ?_, fun d s t u h h' => ?_,
    fun form r d s hp hf hd => ⟨latency_serial_write form hd, _, runCycles_serial_write form hp hf hd, rfl⟩,
    fun s t hs h => ?_⟩
  · have hacc := acc_of_exec_wrDr h
    refine ⟨hacc.trans (crcUpdate_zero_word s.acc), fun hs => ?_, fun hs => ?_⟩ <;> rw [hacc, hs]
    · exact crcUpdate_self 0#32
    · exact crcUpdate_init_zero
  · rw [acc_of_exec_wrDr h', acc_of_exec_wrDr h]
  · rw [acc_of_exec_wrDr h, hs]
    exact crcUpdate_init_example

/-- Settles O16: the read answers ACC, which a reset makes INIT and a serial write in progress has updated by then. -/
theorem rdDrReturnsTheAccumulator : Obligations.RdDrReturnsTheAccumulator := by
  refine ⟨fun d => (decode_eq_legal_iff _ d _).mpr (.inr (.inl ⟨rfl, rfl⟩)), fun s => rfl, fun s t u h h' => ?_,
    fun s t hs h => ?_, fun d s t u v hd h => ⟨fun hu => ?_, fun hu hv => ?_⟩,
    fun form r r' d s u k out hp hf hd hr' hk hk' hrun => ?_⟩
  · rw [resp_of_exec_rdDr h', resp_of_exec_rdDr h, exec_keeps_acc (.inl rfl) h]
  · have hinit : s.acc = Config.init := by obtain rfl | ⟨s', rfl⟩ := hs <;> rfl
    rw [resp_of_exec_rdDr h, hinit]
    rfl
  · rw [resp_of_exec_rdDr hu, acc_of_exec_wrCr_odd hd h]
    rfl
  · rw [resp_of_exec_rdDr hv, acc_of_exec_wrDr hu, acc_of_exec_wrCr_odd hd h, crcUpdate_init_example]
  · obtain ⟨-, hread⟩ := transactionsWaitForASerialWrite form r r' d s _ u k out hp hf hd hk hk' hrun
      (transact_wrDr _ hp hf.1 hd)
    exact hread hr'

/-- Settles O17, by the parity of D: the write's next state depends on nothing else of it. -/
theorem wrCrActsOnBitZeroOnly : Obligations.WrCrActsOnBitZeroOnly := by
  have hodd (d : Word) (s : State) (hd : d.toNat % 2 = 1) :
      exec (.wrCr d) s = .next { s with acc := Config.init, resp := some (.ok 0x00000000#32) } := by
    rw [exec_wrCr_eq, if_pos hd]
  refine ⟨fun d => (decode_eq_legal_iff _ d _).mpr (.inr (.inr (.inl ⟨rfl, rfl⟩))), hodd, fun d s hd => ?_,
    fun d s t u hd h h' => ?_, fun d s t u _ h' => resp_of_exec_rdCr h', fun s _ => ⟨?_, ?_, ?_, ?_⟩⟩
  · rw [exec_wrCr_eq, if_neg (by omega)]
  · rw [hodd d s hd] at h
    cases h
    rw [hodd d _ hd] at h'
    cases h'
    rfl
  · exact fun t => exec_keeps_acc (.inr (.inr ⟨_, rfl, by decide⟩))
  · exact fun t => exec_keeps_acc (.inr (.inr ⟨_, rfl, by decide⟩))
  · exact fun t => acc_of_exec_wrCr_odd (by decide)
  · exact fun t => acc_of_exec_wrCr_odd (by decide)

/-- Settles O22: the error response is all that an illegal request leaves, and no later transaction looks at it. -/
theorem illegalRequestsChangeNothing : Obligations.IllegalRequestsChangeNothing := by
  intro impl r c s hp hf hd
  have hports : State.ports { s with resp := some (.err c) } = ⟨true, true, 0x00000000#32⟩ := by
    simp only [State.ports, hp, Resp.ports]
  exact ⟨transact_illegal_free impl hp hf.1 hd,
    (tick_serve impl rfl rfl hp (.inl hf.1)).trans (serveCycle_of_illegal impl hd s), hports,
    fun r' => transact_resp impl r' hp hf.1 _⟩

/-- Settles O30: an idle cycle leaves all but the response, and no later transaction looks at it. -/
theorem idleCyclesChangeNothing : Obligations.IdleCyclesChangeNothing := by
  intro impl r s hp hf
  have hports : State.ports { s with resp := none } = ⟨false, false, 0x00000000#32⟩ := by
    simp only [State.ports, hp, quietPorts]
  refine ⟨tick_idle impl rfl rfl hp hf.1, hports, fun n => ?_⟩
  obtain ⟨v, hrun⟩ := runCycles_idle impl n hp hf.1
  exact ⟨_, (runCycles_replicate_congr (tick_without_request impl r) n s).trans hrun, rfl, hf.2.1,
    fun r' => transact_resp impl r' hp hf.1 v⟩

/-- Settles O57: the run leaves ACC the fold over the words since the last reset, and the last read answers it. -/
theorem readReturnsTheChecksumSinceTheLastReset : Obligations.ReadReturnsTheChecksumSinceTheLastReset := by
  intro impl rs s hp hf hinit
  obtain ⟨t, out, hrun, -, hpt, hft, hacc⟩ := runRequests_free impl rs hp hf
  refine ⟨_, _, runRequests_append_next hrun
    (runRequests_cons_next (transact_crcResult impl hpt hft.1) rfl rfl), ?_⟩
  rw [List.getLast?_concat, hacc [] hinit]

/-- Settles O18: CR reads as 0 in every state, whatever was written to it. -/
theorem rdCrReturnsZero : Obligations.RdCrReturnsZero :=
  ⟨fun d => (decode_eq_legal_iff _ d _).mpr (.inr (.inr (.inr ⟨rfl, rfl⟩))), fun _ => rfl,
    fun _ _ _ _ h => ⟨resp_of_exec_rdCr h, exec_keeps_acc (.inr (.inl rfl)) h⟩⟩

end Sys2Proof.Machine

/-! SUPPORT. Host sequences: what a host's computation does to the block and returns, how a buffer frames and pads, and how
a checksum is spelled; from these the statements of 42_host_sequences.md are settled. -/

namespace Sys2Proof.Machine

open Sys2Proof

variable {s t : State} {impl : CrcImpl} {policy : PadPolicy} {buf : List Byte} {c : Word}

/-! ### A computation on the block (R89) -/

theorem transact_crcFeed (impl : CrcImpl) (w : Word) (hp : s.power = .operational) (ho : s.outstanding = none) :
    transact impl (crcFeed w) s = .next (respondOk 0x00000000#32 (writeDR w s)) :=
  transact_legal_free impl hp ho (decoded_request _)

/-- The feeds and the read of a computation: ACC folds over the words, and the read answers it. -/
theorem runRequests_feeds_result (impl : CrcImpl) (ws : List Word) (hp : s.power = .operational) (hf : s.portFree) :
    runRequests impl (ws.map crcFeed ++ [crcResult]) s =
      .next ({ s with acc := crcWords s.acc ws, resp := some (.ok (crcWords s.acc ws)) },
        List.replicate ws.length (.ok 0x00000000#32) ++ [.ok (crcWords s.acc ws)]) := by
  induction ws generalizing s with
  | nil => exact runRequests_cons_next (transact_crcResult impl hp hf.1) rfl rfl
  | cons w ws ih =>
    exact runRequests_cons_next (transact_crcFeed impl w hp hf.1) rfl
      (ih (s := respondOk 0x00000000#32 (writeDR w s)) hp hf)

theorem runRequests_computation (impl : CrcImpl) (ws : List Word) (hp : s.power = .operational) (hf : s.portFree) :
    runRequests impl (computation ws) s =
      .next ({ s with acc := checksum ws, resp := some (.ok (checksum ws)) },
        List.replicate (ws.length + 1) (.ok 0x00000000#32) ++ [.ok (checksum ws)]) := by
  rw [checksum, crcOutput_eq]
  exact runRequests_cons_next (transact_crcReset impl hp hf.1) rfl
    (runRequests_feeds_result impl ws (s := respondOk 0x00000000#32 (loadInit s)) hp hf)

/-- Okay responses that end in the read's give its data. -/
theorem hostVerdict_okay (n : Nat) (v c : Word) :
    hostVerdict (List.replicate n (.ok v) ++ [.ok c]) = .ok c := by
  simp [hostVerdict, Resp.isErr]

/-! ### What `compute` does under each policy (R87, R88, R89) -/

theorem framedWords_of_framable (h : policy = .zeroPad ∨ buf.length % 4 = 0) :
    framedWords policy buf = .ok (frame (zeroPadded buf)) :=
  if_neg fun ⟨hlen, hrej⟩ => h.elim (fun hpad => by rw [hpad] at hrej; cases hrej) hlen

theorem framedWords_reject_partial (h : buf.length % 4 ≠ 0) : framedWords .reject buf = .error .invalidInput :=
  if_pos ⟨h, rfl⟩

theorem computeRequests_of_framable (h : policy = .zeroPad ∨ buf.length % 4 = 0) :
    computeRequests policy buf = .ok (computation (frame (zeroPadded buf))) := by
  rw [computeRequests, framedWords_of_framable h]

theorem computeRequests_reject_partial (h : buf.length % 4 ≠ 0) :
    computeRequests .reject buf = .error .invalidInput := by
  rw [computeRequests, framedWords_reject_partial h]

theorem compute_reject_partial (impl : CrcImpl) (s : State) (h : buf.length % 4 ≠ 0) :
    compute impl .reject buf s = .next (.error .invalidInput, s) := by
  rw [compute, computeRequests_reject_partial h]

/-- `compute` looks at its policy by the requests it issues only. -/
theorem compute_congr {policy' : PadPolicy} (h : computeRequests policy buf = computeRequests policy' buf)
    (impl : CrcImpl) (s : State) : compute impl policy buf s = compute impl policy' buf s := by
  rw [compute, compute, h]

theorem compute_of_framable (impl : CrcImpl) (hp : s.power = .operational) (hf : s.portFree)
    (h : policy = .zeroPad ∨ buf.length % 4 = 0) :
    compute impl policy buf s = .next (.ok (checksum (frame (zeroPadded buf))),
      { s with
        acc := checksum (frame (zeroPadded buf)), resp := some (.ok (checksum (frame (zeroPadded buf)))) }) := by
  rw [compute, computeRequests_of_framable h]
  dsimp only
  rw [runRequests_computation impl _ hp hf, andThen_next, hostVerdict_okay]

/-- Where `compute` returns a value, it is the padded buffer's checksum, and ACC holds it on a free port. -/
theorem compute_eq_ok (hp : s.power = .operational) (hf : s.portFree)
    (h : compute impl policy buf s = .next (.ok c, t)) :
    c = checksum (frame (zeroPadded buf)) ∧ t.acc = c ∧ t.power = .operational ∧ t.portFree := by
  by_cases hfr : policy = .zeroPad ∨ buf.length % 4 = 0
  · rw [compute_of_framable impl hp hf hfr] at h
    cases h
    exact ⟨rfl, rfl, hp, hf⟩
  · obtain ⟨hpol, hlen⟩ := not_or.mp hfr
    cases policy with
    | zeroPad => exact absurd rfl hpol
    | reject =>
      rw [compute_reject_partial impl s hlen] at h
      cases h

/-! ### One word of a buffer (R84, R93) -/

/-- A whole group inside a padded buffer is one of its words. -/
theorem frame_zeroPadded_group (before after : List Byte) (b0 b1 b2 b3 : Byte) (h : before.length % 4 = 0) :
    frame (zeroPadded (before ++ [b0, b1, b2, b3] ++ after)) =
      frame before ++ wordOfBytes b0 b1 b2 b3 :: frame (zeroPadded after) := by
  have hlen : (before ++ [b0, b1, b2, b3]).length % 4 = 0 := by
    rw [List.length_append]
    exact (Nat.add_mod_right _ _).trans h
  rw [zeroPadded_append _ _ hlen, frame_append _ _ hlen, frame_append _ _ h, frame_four, List.append_assoc,
    List.singleton_append]

theorem checksum_replace_word_eq_iff (before after : List Word) (w w' : Word) :
    checksum (before ++ w :: after) = checksum (before ++ w' :: after) ↔ w = w' := by
  rw [checksum, checksum, crcOutput_eq, crcOutput_eq]
  exact ⟨fun he => not_not.mp fun hne => crcWords_ne_of_word_ne hne _ before after he, fun he => by rw [he]⟩

theorem wordOfBytes_reverse_eq_iff (b0 b1 b2 b3 : Byte) :
    wordOfBytes b3 b2 b1 b0 = wordOfBytes b0 b1 b2 b3 ↔ b0 = b3 ∧ b1 = b2 := by
  rw [wordOfBytes_inj]
  exact ⟨fun ⟨_, _, h1, h0⟩ => ⟨h0, h1⟩, fun ⟨h0, h1⟩ => ⟨h0.symm, h1.symm, h1, h0⟩⟩

/-- The word of a group is its big-endian reading with the bytes swapped (R85). -/
theorem bufWord_eq_bswap32 (buf : List Byte) (i : Nat) : bufWord buf i = bswap32 (bufWordBE buf i) := by
  rw [bufWordBE, append_eq_wordOfBytes, bswap32_wordOfBytes]
  rfl

theorem frame_length (buf : List Byte) : (frame buf).length = buf.length / 4 := by
  rw [frame, List.length_map, List.length_range]
  rfl

theorem frame_getElem? {i : Nat} (h : i < buf.length / 4) : (frame buf)[i]? = some (bufWord buf i) := by
  rw [frame, List.getElem?_map, List.getElem?_range (show i < buf.length / Config.wordBytes from h), Option.map_some]

/-! ### The last, partial word (R87) -/

theorem zeroPadded_whole (h : buf.length % 4 = 0) : zeroPadded buf = buf := by
  simp [zeroPadded, paddingBytes, h]

theorem zeroPadded_partial (h : buf.length % 4 ≠ 0) :
    zeroPadded buf = buf ++ List.replicate (4 - buf.length % 4) 0#8 := by
  rw [zeroPadded, paddingBytes, Nat.mod_eq_of_lt (show 4 - buf.length % 4 < 4 by omega)]

/-- Zero bytes inside the last word are part of the padding. -/
theorem zeroPadded_append_zeros {k : Nat} (h : buf.length % 4 ≠ 0) (hk : k ≤ 4 - buf.length % 4) :
    zeroPadded (buf ++ List.replicate k 0#8) = zeroPadded buf := by
  have hpad : k + paddingBytes (buf.length + k) = paddingBytes buf.length := by
    unfold paddingBytes
    omega
  simp only [zeroPadded, List.append_assoc, List.length_append, List.length_replicate, List.replicate_append_replicate,
    hpad]

/-- The word of a group of one to three bytes: their zero extension. -/
theorem frame_zeroPadded_group_partial (rest : List Byte) (hne : rest.length ≠ 0) (hlt : rest.length < 4) :
    frame (zeroPadded rest) = [(List.range rest.length).foldl
      (fun w j => w ||| ((rest.getD j 0#8).setWidth 32 <<< (8 * j))) 0#32] := by
  match rest, hne, hlt with
  | [b0], _, _ =>
    rw [show zeroPadded [b0] = [b0, 0#8, 0#8, 0#8] from rfl, frame_four]
    simp [wordOfBytes, List.range_succ]
  | [b0, b1], _, _ =>
    rw [show zeroPadded [b0, b1] = [b0, b1, 0#8, 0#8] from rfl, frame_four]
    simp [wordOfBytes, List.range_succ]
  | [b0, b1, b2], _, _ =>
    rw [show zeroPadded [b0, b1, b2] = [b0, b1, b2, 0#8] from rfl, frame_four]
    simp [wordOfBytes, List.range_succ]

/-- Fewer than four bytes make no word. -/
theorem frame_of_length_lt (h : buf.length < 4) : frame buf = [] :=
  List.eq_nil_of_length_eq_zero ((frame_length buf).trans (Nat.div_eq_of_lt h))

theorem frame_zeroPadded_partial (h : buf.length % 4 ≠ 0) :
    frame (zeroPadded buf) = frame buf ++
      [(List.range (buf.length % 4)).foldl
        (fun w j => w ||| ((buf.getD (4 * (buf.length / 4) + j) 0#8).setWidth 32 <<< (8 * j))) 0#32] := by
  obtain ⟨whole, rest, rfl, hw, hr⟩ : ∃ whole rest, buf = whole ++ rest ∧ whole.length = 4 * (buf.length / 4) ∧
      rest.length = buf.length % 4 :=
    ⟨buf.take (4 * (buf.length / 4)), buf.drop (4 * (buf.length / 4)), (List.take_append_drop _ _).symm,
      by rw [List.length_take]; omega, by rw [List.length_drop]; omega⟩
  have hwhole : whole.length % 4 = 0 := by omega
  have hlt : rest.length < 4 := by omega
  have hget (j : Nat) : (whole ++ rest).getD (whole.length + j) 0#8 = rest.getD j 0#8 := by
    rw [List.getD_append_right _ _ _ _ (Nat.le_add_right _ _), Nat.add_sub_cancel_left]
  rw [zeroPadded_append _ _ hwhole, frame_append _ _ hwhole, frame_append _ _ hwhole, frame_of_length_lt hlt,
    List.append_nil, frame_zeroPadded_group_partial rest (by omega) hlt, ← hw, ← hr]
  simp only [hget]

/-- The checksum of the one word 1. -/
theorem checksum_one : checksum [0x00000001#32] = 0xC3C5C0CC#32 := by
  simp [checksum_eq_foldl, crcUpdate, crcSteps, crcStep, Config.poly, Config.init]

/-! ### Hexadecimal digits (R95) -/

theorem hexDigit_range {n : Nat} (hn : n < 16) :
    ('0' ≤ hexDigit n ∧ hexDigit n ≤ '9') ∨ ('A' ≤ hexDigit n ∧ hexDigit n ≤ 'F') := by
  revert n; decide

theorem digitValue_hexDigit {n : Nat} (hn : n < 16) : digitValue (hexDigit n) = some n := by
  revert n; decide

/-- Reading rendered digits back makes their positional value. -/
theorem readDigits_hexDigit {ns : List Nat} (h : ∀ n ∈ ns, n < 16) (acc : Nat) :
    readDigits 16 acc (ns.map hexDigit) = some (ns.foldl (fun a n => a * 16 + n) acc) := by
  induction ns generalizing acc with
  | nil => rfl
  | cons n ns ih =>
    obtain ⟨hn, hns⟩ := List.forall_mem_cons.mp h
    rw [List.map_cons, readDigits, digitValue_hexDigit hn]
    dsimp only
    rw [if_pos hn, ih hns, List.foldl_cons]

/-- The hexadecimal digits of a 32-bit value, most significant first. -/
def hexDigits (w : Word) : List Nat := [7, 6, 5, 4, 3, 2, 1, 0].map fun k => w.toNat / 16 ^ k % 16

theorem hexRender_eq_map (w : Word) : hexRender w = (hexDigits w).map hexDigit := by
  rw [hexRender, hexDigits, List.map_map]
  rfl

theorem lt_of_mem_hexDigits {w : Word} {n : Nat} (h : n ∈ hexDigits w) : n < 16 := by
  obtain ⟨k, -, rfl⟩ := List.mem_map.mp h
  exact Nat.mod_lt _ (by decide)

theorem foldl_hexDigits (w : Word) : (hexDigits w).foldl (fun a n => a * 16 + n) 0 = w.toNat := by
  have hw := w.isLt
  simp only [hexDigits, List.map_cons, List.map_nil, List.foldl_cons, List.foldl_nil, Nat.reducePow]
  omega

theorem readDigits_hexRender (w : Word) : readDigits 16 0 (hexRender w) = some w.toNat := by
  rw [hexRender_eq_map, readDigits_hexDigit fun _ => lt_of_mem_hexDigits, foldl_hexDigits]

/-! ### The obligations -/

/-- Settles O52: the run over the requests, by induction on the words, has the fold from INIT in ACC and in the read's
response. -/
theorem computeReturnsTheChecksum : Obligations.ComputeReturnsTheChecksum := by
  refine ⟨fun impl buf s hlen => compute_reject_partial impl s hlen, ?_⟩
  intro impl policy buf s hp hf hfr ws feeds result rs
  have hfeeds : feeds = ws.map crcFeed := List.map_congr_left fun w _ => (request_wrDr w).symm
  have hrs : rs = computation ws := by
    rw [computation, ← hfeeds, crcReset, request_wrCr]
    rfl
  have hfold : ws.foldl crcUpdate 0xFFFFFFFF#32 = checksum ws := (checksum_eq_foldl ws).symm
  rw [hrs, hfold]
  refine ⟨computeRequests_of_framable hfr, ⟨_, _, runRequests_computation impl ws hp hf, fun v hv => ?_⟩,
    ⟨_, compute_of_framable impl hp hf hfr, rfl, hp, hf⟩, fun hinit => ?_⟩
  · obtain hv | hv := List.mem_append.mp hv
    · rw [List.eq_of_mem_replicate hv]
      rfl
    · rw [List.mem_singleton.mp hv]
      rfl
  · rw [hfeeds]
    refine ⟨_, _, runRequests_feeds_result impl ws hp hf, ?_⟩
    rw [List.getLast?_concat, hinit, checksum, crcOutput_eq]

/-- Settles O48: the byte lanes of the group's word are its bytes, and bits 31 and 0 lie in the last and the first. -/
theorem framedWordsAreLittleEndian : Obligations.FramedWordsAreLittleEndian := by
  refine ⟨fun buf i k hk => ?_, bufWord_eq_bswap32, fun buf i => ?_,
    fun buf => ⟨frame_length buf, fun i => frame_getElem?⟩, frame_four _ _ _ _⟩
  · obtain ⟨h0, h1, h2, h3⟩ := byteLane_wordOfBytes (buf.getD (4 * i) 0#8) (buf.getD (4 * i + 1) 0#8)
      (buf.getD (4 * i + 2) 0#8) (buf.getD (4 * i + 3) 0#8)
    match k, hk with
    | 0, _ => exact h0
    | 1, _ => exact h1
    | 2, _ => exact h2
    | 3, _ => exact h3
  · rw [bufWord, wordOfBytes_getElem _ _ _ _ 31 (by decide), wordOfBytes_getElem _ _ _ _ 0 (by decide)]
    exact ⟨rfl, rfl⟩

/-- Settles O50: the partial group left over, of one to three bytes, frames apart from the whole groups. -/
theorem zeroPaddingExtendsTheLastWord : Obligations.ZeroPaddingExtendsTheLastWord :=
  ⟨fun _ h => ⟨zeroPadded_partial h, frame_zeroPadded_partial h, fun _ hk => by rw [zeroPadded_append_zeros h hk]⟩,
    fun _ => zeroPadded_whole, checksum_one, checksum_one⟩

/-- Settles O51: framing fails before any transaction is issued, and on whole words it does not look at the policy. -/
theorem rejectPolicyFailsOnPartialWords : Obligations.RejectPolicyFailsOnPartialWords := by
  refine ⟨fun impl buf s h => ⟨computeRequests_reject_partial h, compute_reject_partial impl s h⟩, fun impl buf s h => ?_⟩
  have hreq : computeRequests .reject buf = computeRequests .zeroPad buf :=
    (computeRequests_of_framable (.inr h)).trans (computeRequests_of_framable (.inr h)).symm
  exact ⟨hreq, compute_congr hreq impl s⟩

/-- Settles O54: the two word sequences differ in one word at most, and there by a reversal of its bytes. -/
theorem reversingAWordChangesTheChecksum : Obligations.ReversingAWordChangesTheChecksum := by
  intro impl impl' policy before after b0 b1 b2 b3 s s' t t' v v' hlen hp hf hp' hf' h h'
  obtain ⟨rfl, -⟩ := compute_eq_ok hp hf h
  obtain ⟨rfl, -⟩ := compute_eq_ok hp' hf' h'
  rw [frame_zeroPadded_group _ _ _ _ _ _ hlen, frame_zeroPadded_group _ _ _ _ _ _ hlen, ne_eq,
    checksum_replace_word_eq_iff, wordOfBytes_reverse_eq_iff]

/-- Settles O55: each digit is in range and reads back, and the eight digits' positional value is the word. -/
theorem hexRenderingSpellsTheValue : Obligations.HexRenderingSpellsTheValue := by
  refine ⟨fun w => ⟨rfl, fun c hc => ?_, readDigits_hexRender w⟩, by decide, by decide, fun _ => rfl⟩
  rw [hexRender_eq_map] at hc
  obtain ⟨n, hn, rfl⟩ := List.mem_map.mp hc
  exact hexDigit_range (lt_of_mem_hexDigits hn)

/-- Settles O56: ACC holds the returned checksum, and feeding ACC to itself gives 0. -/
theorem residueIsZero : Obligations.ResidueIsZero := by
  intro impl policy buf c s t hp hf h
  obtain ⟨-, hacc, hpt, hft⟩ := compute_eq_ok hp hf h
  refine ⟨_, transact_crcFeed impl c hpt hft.1, ?_⟩
  rw [respondOk_acc, writeDR_acc, hacc, crcUpdate_self]

/-- Settles O53: the empty buffer has no words. -/
theorem emptyBufferGivesInit : Obligations.EmptyBufferGivesInit := by
  intro impl policy s hp hf
  have hempty : ([] : List Byte).length % 4 = 0 := rfl
  exact ⟨computeRequests_of_framable (.inr hempty), rfl, _, compute_of_framable impl hp hf (.inr hempty)⟩

end Sys2Proof.Machine

/-! SUPPORT. Errors and power: the class of an illegal request by its ports, what a legal request answers, the events that a
block always answers with a next state, and what an edge after a stop of CLK looks at; from these the statements of
60_exceptions.md are settled. -/

namespace Sys2Proof.Machine

open Sys2Proof

variable {s : State} {impl : CrcImpl} {r : Request}

/-! ### The class of an illegal request, by its ports (R45, R99) -/

/-- REQ_ADDR is the low four bits of the descriptor (R45). -/
theorem descriptor_toNat_mod (r : Request) : r.descriptor.toNat % 16 = r.addr.toNat := by
  have haddr : BitVec.extractLsb' 0 4 r.descriptor = r.addr := congrArg Request.addr (ofDescriptor_descriptor r)
  simpa using congrArg BitVec.toNat haddr

/-- SIZE stands above REQ_ADDR in the descriptor (R45). -/
theorem descriptor_toNat_size (r : Request) : r.descriptor.toNat / 16 % 4 = r.size.toNat := by
  rw [← sizeField_toNat, sizeField_descriptor]

/-- R49's condition for a class, on REQ_SIZE and REQ_ADDR. -/
theorem decoded_eq_illegal_iff (r : Request) (c : Cause) :
    r.decoded = .illegal c ↔ classCondition (16 * r.size.toNat + r.addr.toNat) c = true := by
  have hsize := descriptor_toNat_size r
  have haddr := descriptor_toNat_mod r
  rw [Request.decoded, decode_eq_illegal_iff]
  cases c <;> simp only [classCondition, decide_eq_true_iff] <;> omega

/-! ### What a request answers (R101) -/

theorem exec_responds_ok (i : Instr) (s : State) : ∃ t v, exec i s = .next t ∧ t.resp = some (.ok v) := by
  obtain ⟨a, v, h⟩ := exec_writes_acc_and_resp i s
  exact ⟨_, v, h, rfl⟩

theorem latency_of_illegal (impl : CrcImpl) {c : Cause} (hd : r.decoded = .illegal c) : latency impl r = 1 := by
  simp only [latency, hd]

/-! ### Events that are answered by a next state (R97, R118, R122) -/

theorem transact_answers (impl : CrcImpl) (r : Request) (hp : s.power = .operational) :
    ∃ t, transact impl r s = .next t := by
  cases hd : r.decoded with
  | illegal c => exact ⟨_, transact_of_illegal impl hp hd⟩
  | legal i =>
    obtain ⟨t, v, ht, -⟩ := exec_responds_ok i (settle impl s)
    exact ⟨t, (transact_of_legal impl hp hd).trans ht⟩

theorem serveCycle_answers (impl : CrcImpl) (r : Request) (s : State) : ∃ t, serveCycle impl r s = .next t := by
  obtain ⟨c, -, h⟩ | ⟨d, -, h⟩ | ⟨-, h⟩ | ⟨d, -, h⟩ | ⟨-, h⟩ := serveCycle_cases impl r s <;> exact ⟨_, h⟩

theorem tick_unreset (impl : CrcImpl) {p : Pins} (hr : p.rst = false) (hv : p.reqValid = false)
    (hp : s.power = .unreset) : tick impl p s = .next (unspecified s) := by
  simp [tick, hr, hv, hp]

/-- A request is served where the port is free, and where it is the outstanding one; the duties leave no other. -/
theorem tick_answers (impl : CrcImpl) {p : Pins} (h : eventDutiful (.cycle p) s) : ∃ t, tick impl p s = .next t := by
  by_cases hr : p.rst = true
  · exact ⟨_, tick_reset impl hr s⟩
  obtain ⟨hreset, hheld⟩ := h.resolve_left hr
  rw [Bool.not_eq_true] at hr
  cases hv : p.reqValid with
  | true =>
    have ho : s.outstanding = none ∨ s.outstanding = some p.req := by
      cases ho : s.outstanding with
      | none => exact .inl rfl
      | some r => exact .inr (congrArg some (hheld r ho).2.symm)
    rw [tick_serve impl hr hv (hreset hv) ho]
    exact serveCycle_answers impl p.req s
  | false =>
    cases hp : s.power with
    | unreset => exact ⟨_, tick_unreset impl hr hv hp⟩
    | operational =>
      have ho : s.outstanding = none :=
        Option.eq_none_iff_forall_ne_some.mpr fun r ho => nomatch hv.symm.trans (hheld r ho).1
      exact ⟨_, tick_idle impl hr hv hp ho⟩

theorem unaddressed_answers (impl : CrcImpl) (s : State) : ∃ t, unaddressed impl s = .next t := by
  cases hp : s.power with
  | unreset => exact ⟨_, unaddressed_of_unreset impl hp⟩
  | operational => exact ⟨_, unaddressed_of_operational impl hp⟩

theorem applyEvent_answers (p : Params) {ev : HostEvent} (h : eventDutiful ev s) :
    ∃ t, applyEvent p ev s = .next t := by
  cases ev with
  | request r => exact transact_answers _ r h
  | access a =>
    cases ha : a.request? p.base with
    | some r => rw [applyEvent_access_some ha]; exact transact_answers _ r h
    | none => rw [applyEvent_access_none ha]; exact unaddressed_answers _ s
  | cycle pins => exact tick_answers _ h
  | clockStop => exact ⟨_, rfl⟩
  | powerCycle => exact ⟨_, rfl⟩

/-- A step with nothing queued keeps the host's duties: it holds the outstanding request, which only a reset block has. -/
theorem restPins_dutiful (h : s.Inv impl) : eventDutiful (.cycle (restPins s)) s := by
  refine .inr ?_
  cases ho : s.outstanding with
  | none => simp [restPins, ho, idlePins]
  | some r =>
    have hp : s.power = .operational := by
      obtain ⟨-, hn, -⟩ | ⟨hp, -⟩ | ⟨form, r', d, -, hw⟩ := (State.inv_iff impl s).mp h
      · rw [ho] at hn; cases hn
      · exact hp
      · exact hw.power
    simp [restPins, ho, holdPins, hp]

/-! ### What an edge after a stop of CLK looks at (R112) -/

theorem serveCycle_resp (impl : CrcImpl) (r : Request) (s : State) (v : Option Resp) :
    serveCycle impl r { s with resp := v } = serveCycle impl r s := by
  cases hd : r.decoded with
  | illegal c => simp only [serveCycle_of_illegal impl hd, busError]
  | legal i =>
    by_cases hi : ∃ d, i = .wrDr d
    · obtain ⟨d, rfl⟩ := hi
      rw [serveCycle_of_wrDr impl hd, serveCycle_of_wrDr impl hd]
      cases impl with
      | parallel => rfl
      | serial form => cases form <;> rfl
    · rw [serveCycle_of_legal impl hd fun d e => hi ⟨d, e⟩, serveCycle_of_legal impl hd fun d e => hi ⟨d, e⟩, exec_resp]

/-- An edge does not look at the last response. -/
theorem tick_resp (impl : CrcImpl) (p : Pins) (s : State) (v : Option Resp) :
    tick impl p { s with resp := v } = tick impl p s := by
  simp only [tick, tickRunning, serveCycle_resp, hardReset, unspecified, idle]

/-! ### The obligations -/

/-- Settles O3: each of R100's conditions is R49's condition for its class. -/
theorem firstErrorConditionGivesTheLabel : Obligations.FirstErrorConditionGivesTheLabel := by
  refine ⟨fun r => ?_, fun we d => ?_, fun c c' => rfl⟩
  · have hsize := r.size.isLt
    have haddr := r.addr.isLt
    simp only [decoded_eq_illegal_iff, classCondition, decide_eq_true_iff, ne_eq, BitVec.toNat_eq, BitVec.reduceToNat]
    omega
  · simp only [decoded_eq_illegal_iff]
    decide

/-- Settles O23: every arm of exec answers OK, and an illegal request's one cycle answers the error. -/
theorem legalTransactionsNeverFail : Obligations.LegalTransactionsNeverFail := by
  refine ⟨exec_responds_ok, fun impl r i s hp hf hd => ?_, fun impl r c s hp hf hd => ?_⟩
  · rw [transact_legal_free impl hp hf.1 hd]
    exact exec_responds_ok i s
  · have hrun := runCycles_transactionPins hp hf (transact_illegal_free impl hp hf.1 hd) rfl
    rw [latency_of_illegal impl hd] at hrun
    exact ⟨_, hrun⟩

/-- Settles O46: the duties leave each event a next state, and the invariant makes a step with nothing queued dutiful. -/
theorem dutifulStepsNeverStop : Obligations.DutifulStepsNeverStop := by
  refine ⟨fun p ev s _ h => applyEvent_answers p h, fun p s hi hq => ?_⟩
  rw [stepWith_rest p hq]
  exact tick_answers _ (restPins_dutiful hi)

/-- Settles O38: a stop of CLK takes the last response only, and a loss of power leaves a block that has had no reset. -/
theorem clockStopKeepsStateAndPowerLossNeedsAReset : Obligations.ClockStopKeepsStateAndPowerLossNeedsAReset := by
  refine fun p s => ⟨⟨idle s, rfl, rfl, rfl, rfl, rfl, rfl, fun pins => tick_resp p.crcImpl pins s none⟩,
    unspecified s, rfl, fun r => ?_, ?_⟩
  · exact transact_of_unreset p.crcImpl r (unspecified_power s)
  · exact ⟨_, tick_reset p.crcImpl rfl (unspecified s), rfl, rfl⟩

end Sys2Proof.Machine

/-! SUPPORT. Reset and hazards: a hardware reset and what it forgets, the cycles before a transaction responds, a software
reset beside a hardware one, the latencies, and the refusals; from these the statements of 70_reset_and_hazards.md are
settled. -/

namespace Sys2Proof.Machine

open Sys2Proof

variable {s t : State} {impl : CrcImpl} {r : Request} {d : Word}

/-! ### A hardware reset (R113, R114) -/

/-- The block after a hardware reset is reset since power-up and has not responded, so its ports are quiet (R113). -/
@[simp] theorem hardReset_ports (s : State) : (hardReset s).ports = quietPorts := rfl

@[simp] theorem hardReset_hardReset (s : State) : hardReset (hardReset s) = hardReset s := rfl

/-- A cycle with RST = 1 shows no response. -/
theorem runCycles_reset (impl : CrcImpl) {p : Pins} (hr : p.rst = true) (ps : List Pins) (s : State) :
    runCycles impl (p :: ps) s = andThen (runCycles impl ps (hardReset s)) fun u => .next (u.1, none :: u.2) := by
  rw [runCycles, tick_reset impl hr, andThen_next, hardReset_resp]

/-- One edge with RST = 1 is enough, and more change nothing (R113). -/
theorem runCycles_replicate_reset (impl : CrcImpl) {p : Pins} (hr : p.rst = true) (n : Nat) (s : State) :
    runCycles impl (List.replicate (n + 1) p) s = .next (hardReset s, List.replicate (n + 1) none) := by
  induction n generalizing s with
  | zero => exact runCycles_reset impl hr [] s
  | succ n ih =>
    rw [List.replicate_succ, runCycles_reset impl hr, ih, andThen_next, hardReset_hardReset]
    rfl

/-- Serving a request writes nothing that a hardware reset keeps. -/
theorem serveCycle_keeps_power_and_hardReset (h : serveCycle impl r s = .next t) :
    t.power = s.power ∧ hardReset t = hardReset s := by
  obtain ⟨c, -, hs⟩ | ⟨d, -, hs⟩ | ⟨-, hs⟩ | ⟨d, -, hs⟩ | ⟨-, hs⟩ := serveCycle_cases impl r s <;>
    cases hs.symm.trans h
  · exact ⟨rfl, rfl⟩
  · cases impl <;> exact ⟨rfl, rfl⟩
  · exact ⟨rfl, rfl⟩
  · simp [hardReset]
  · exact ⟨rfl, rfl⟩

/-- No edge of a block that is reset since power-up writes anything that a hardware reset keeps. -/
theorem tick_keeps_power_and_hardReset {p : Pins} (hp : s.power = .operational) (h : tick impl p s = .next t) :
    t.power = .operational ∧ hardReset t = hardReset s := by
  obtain ⟨-, rfl⟩ | ⟨-, hu, -⟩ | ⟨-, -, -, -, rfl⟩ | ⟨-, -, -, -, hs⟩ := tick_cases h
  · exact ⟨rfl, rfl⟩
  · rw [hp] at hu; cases hu
  · exact ⟨hp, rfl⟩
  · rw [← hp]; exact serveCycle_keeps_power_and_hardReset hs

/-- However far a run has got, a hardware reset leaves the state that it would have left at its start (R114). -/
theorem runCycles_keeps_hardReset {ps : List Pins} {out : List (Option Resp)} (hp : s.power = .operational)
    (h : runCycles impl ps s = .next (t, out)) : hardReset t = hardReset s := by
  induction ps generalizing s out with
  | nil => cases h; rfl
  | cons p ps ih =>
    obtain ⟨s', hs', h⟩ := andThen_eq_next h
    obtain ⟨⟨t', out'⟩, ht', h⟩ := andThen_eq_next h
    cases h
    obtain ⟨hp', hreset⟩ := tick_keeps_power_and_hardReset hp hs'
    exact (ih hp' ht').trans hreset

/-- Before its completing cycle a transaction has not responded (R125). -/
theorem runCycles_before_response {k : Nat} (hp : s.power = .operational) (hf : s.portFree) (hk : k < latency impl r) :
    ∃ t, runCycles impl (List.replicate k (holdPins r)) s = .next (t, List.replicate k none) := by
  cases k with
  | zero => exact ⟨s, rfl⟩
  | succ k =>
    obtain hl | ⟨form, d, rfl, hd⟩ := latency_eq_one_or_serial_write impl r
    · omega
    · rw [latency_serial_write form hd] at hk
      obtain ⟨t, hrun, -⟩ := runCycles_wait_states form k hp hf hd (by omega)
      exact ⟨t, hrun⟩

/-! ### The latency of each transaction (R125) -/

theorem latency_of_wrDr (impl : CrcImpl) (hd : r.decoded = .legal (.wrDr d)) :
    latency impl r = if impl = .parallel then 1 else 32 := by
  cases impl with
  | parallel => simp only [latency, hd, if_true]
  | serial form => exact latency_serial_write form hd

theorem latency_of_legal (impl : CrcImpl) {i : Instr} (hd : r.decoded = .legal i) (hi : ∀ d, i ≠ .wrDr d) :
    latency impl r = 1 := by
  obtain hl | ⟨form, d, -, hd'⟩ := latency_eq_one_or_serial_write impl r
  · exact hl
  · rw [hd] at hd'
    cases hd'
    exact absurd rfl (hi d)

@[simp] theorem transactionPins_length (impl : CrcImpl) (r : Request) : (transactionPins impl r).length = latency impl r :=
  List.length_replicate

/-- The transaction cycles of a computation: one for each end of it, and those of a WR_DR for each word. -/
theorem computation_cycles (impl : CrcImpl) (ws : List Word) :
    ((computation ws).flatMap (transactionPins impl)).length = (if impl = .parallel then 1 else 32) * ws.length + 2 := by
  have hreset : latency impl crcReset = 1 := latency_of_legal impl decoded_crcReset nofun
  have hfeed (w : Word) : latency impl (crcFeed w) = if impl = .parallel then 1 else 32 :=
    latency_of_wrDr impl (decoded_request _)
  have hresult : latency impl crcResult = 1 := latency_of_legal impl decoded_crcResult nofun
  have hfeeds : (ws.flatMap fun w => transactionPins impl (crcFeed w)).length =
      (if impl = .parallel then 1 else 32) * ws.length := by
    simp [List.length_flatMap, hfeed, Nat.mul_comm]
  simp only [computation, List.flatMap_cons, List.flatMap_append, List.flatMap_map, List.flatMap_nil, List.append_nil,
    List.length_append, transactionPins_length, hreset, hresult, hfeeds]
  omega

/-- A transaction on a free port answers a response. -/
theorem transact_responds (impl : CrcImpl) (r : Request) (hp : s.power = .operational)
    (ho : s.outstanding = none) : ∃ t v, transact impl r s = .next t ∧ t.resp = some v := by
  obtain ⟨a, v, h⟩ := transact_writes_acc_and_resp impl r hp ho
  exact ⟨_, v, h, rfl⟩

/-! ### The refusals (R118, R122) -/

theorem tick_request_unreset (impl : CrcImpl) {p : Pins} (hr : p.rst = false) (hv : p.reqValid = true)
    (hp : s.power = .unreset) : tick impl p s = .refused .noResetSincePowerUp := by
  simp [tick, hr, hv, hp]

theorem tick_request_changed (impl : CrcImpl) {p : Pins} (hr : p.rst = false) (hp : s.power = .operational)
    (ho : s.outstanding = some r) (hc : p.reqValid = false ∨ p.req ≠ r) : tick impl p s = .refused .requestChanged := by
  have hheld : ¬(p.reqValid = true ∧ p.req = r) := by
    rintro ⟨hv, he⟩
    exact hc.elim (fun hv' => nomatch hv.symm.trans hv') fun hne => hne he
  simp only [tick, hr, hp, tickRunning, ho, if_neg hheld, Bool.false_eq_true, if_false]

/-! ### The obligations -/

/-- Settles O32: every such edge leaves `hardReset s`, in which the port is free for a request. -/
theorem hardwareResetSetsTheResetState : Obligations.HardwareResetSetsTheResetState := by
  intro impl p s hr
  refine ⟨hardReset s, tick_reset impl hr s, rfl, rfl, rfl, hardReset_ports s, rfl, rfl,
    fun n => runCycles_replicate_reset impl hr n s, fun r => ?_⟩
  rw [tick_serve impl rfl rfl rfl (.inl rfl)]
  exact serveCycle_answers impl r (hardReset s)

/-- Settles O34: up to its completing cycle nothing has responded, and the reset forgets what the held cycles did. -/
theorem resetAbandonsTheTransaction : Obligations.ResetAbandonsTheTransaction := by
  intro impl r p s k hp hf hr hk
  obtain ⟨t, hrun⟩ := runCycles_before_response hp hf hk
  have hreset : runCycles impl [p] t = .next (hardReset s, [none]) := by
    rw [← runCycles_keeps_hardReset hp hrun]
    exact runCycles_reset impl hr [] t
  refine ⟨?_, rfl, rfl⟩
  rw [runCycles_append_next hrun hreset, List.replicate_succ']

/-- Settles O35: either reset leaves ACC = INIT, which is all that the two reads look at. -/
theorem softwareResetMatchesHardwareReset : Obligations.SoftwareResetMatchesHardwareReset := by
  intro d s hd hf
  refine ⟨⟨_, exec_wrCr_eq d s, if_pos hd, hf.2.1, rfl⟩, fun t ht => ⟨⟨_, rfl, ?_⟩, _, rfl, rfl⟩⟩
  have hacc : t.acc = Config.init := by
    obtain h | rfl := ht
    · exact acc_of_exec_wrCr_odd hd h
    · rfl
  rw [respondOk_resp, readDR, hacc, Config.init]

/-- Settles O42: the held cycles of a transaction respond in the last one, and the decoder gives each its latency. -/
theorem latencies : Obligations.Latencies := by
  refine ⟨fun impl r s hp hf => ?_, fun impl p s hr => tick_reset impl hr s,
    fun impl d => ⟨latency_of_wrDr impl (decoded_request _), latency_of_legal impl (decoded_request _) nofun,
      latency_of_legal impl (decoded_request _) nofun, latency_of_legal impl (decoded_request _) nofun⟩,
    fun impl r c => latency_of_illegal impl, fun impl ws => ?_⟩
  · obtain ⟨t, v, ht, hv⟩ := transact_responds impl r hp hf.1
    exact ⟨t, v, runCycles_transactionPins hp hf ht hv⟩
  · rw [computation_cycles]
    split <;> omega

/-- Settles O36: without a reset every form of a request is refused, and an edge with RST = 1 makes the block answer. -/
theorem requestsBeforeTheFirstResetAreRefused : Obligations.RequestsBeforeTheFirstResetAreRefused :=
  fun impl r s hp => ⟨transact_of_unreset impl r hp, tick_request_unreset impl rfl rfl hp,
    ⟨unspecified s, tick_unreset impl rfl rfl hp, rfl⟩,
    hardReset s, tick_reset impl rfl s, rfl, transact_answers impl r rfl⟩

/-- Settles O37: a cycle under an outstanding request serves that request alone. -/
theorem changedRequestsAreRefused : Obligations.ChangedRequestsAreRefused := by
  intro impl p r s hp ho hr
  refine ⟨tick_request_changed impl hr hp ho, fun hv he => ?_⟩
  rw [tick_serve impl hr hv hp (.inr (he ▸ ho))]
  exact serveCycle_answers impl p.req s

end Sys2Proof.Machine
